-- ==== Sys2Proof/Word.lean ====
section
/-! DEFINITION. The word types of the NBU (spec/00_scope.md R8, spec/10_state.md R20). -/

namespace Sys2Proof

/-- A 32-bit register or command word: CMD, STATUS, LEN, RESULT_LO, RESULT_HI, OUT_LEN (R8). -/
abbrev Word := BitVec 32

/-- One byte of BUF or OUT, an unsigned 8-bit value (R29, R30). -/
abbrev Byte := BitVec 8

/-- The value of RESULT, 53 bits unsigned (R26). -/
abbrev Scalar := BitVec 53

end Sys2Proof
end

