-- ==== Sys2Proof/Syntax.lean ====
section
/-! DEFINITION. The six commands of the NBU (spec/30_encoding.md R85, R91), one constructor per row of
spec/opcode_table.json, and the two pseudo-instructions of R93. -/

namespace Sys2Proof

/-- A decoded command. Operands are mathematical integers (spec/00_scope.md R9) but for XBYTE's byte, in the argument
order of R91. -/
inductive Instr where
  /-- XBYTE byte, offset, length (R112). -/
  | xbyte (byte : Byte) (offset length : Int)
  /-- XBYTE.D byte, offset: the length is left out (R114). -/
  | xbyteD (byte : Byte) (offset : Int)
  /-- RDBITS bitOffset, bitLength: strict read (R131). -/
  | rdbits (bitOffset bitLength : Int)
  /-- RDBITS.L bitOffset, bitLength: loose read (R132). -/
  | rdbitsL (bitOffset bitLength : Int)
  /-- UNPACK bits, bitOffset (R161). -/
  | unpack (bits bitOffset : Int)
  /-- CROCK (R180). -/
  | crock
deriving DecidableEq, Repr

/-- The pseudo-instruction `UNPACK bits` with the offset left out (R93 (a)). -/
def Instr.unpackNoOffset (bits : Int) : Instr := .unpack bits 0

/-- The pseudo-instruction `XBYTE byte, offset` with the length left out (R93 (b)). -/
def Instr.xbyteNoLength (byte : Byte) (offset : Int) : Instr := .xbyteD byte offset

end Sys2Proof
end

