-- ==== Sys2Proof/WellFormed.lean ====
section
/-! DEFINITION. Well-formed commands: every operand is in the representable range of its field (spec/30_encoding.md
R84), which is what the assembler of R92 accepts. An operand outside the LEGAL range of R96 is well formed; it raises at
run time (R89). -/

namespace Sys2Proof

/-- The range of an 8-bit two's-complement field. -/
def fitsSigned8 (v : Int) : Bool := decide (-128 ≤ v) && decide (v ≤ 127)

/-- The range of a 16-bit two's-complement field. -/
def fitsSigned16 (v : Int) : Bool := decide (-32768 ≤ v) && decide (v ≤ 32767)

/-- Every operand can be encoded (R84). -/
def Instr.wellFormed : Instr → Bool
  | .xbyte _ offset length => fitsSigned8 offset && fitsSigned8 length
  | .xbyteD _ offset => fitsSigned8 offset
  | .rdbits bitOffset bitLength => fitsSigned16 bitOffset && fitsSigned8 bitLength
  | .rdbitsL bitOffset bitLength => fitsSigned16 bitOffset && fitsSigned8 bitLength
  | .unpack bits bitOffset => fitsSigned8 bits && fitsSigned16 bitOffset
  | .crock => true

end Sys2Proof
end

