-- ==== Sys2Proof/Decode.lean ====
section
/-! DEFINITION. The decoder of command words, total on all 32-bit words (spec/30_encoding.md R91), and the encoder,
written from the formats of R82, R83 and the patterns of R85. -/

namespace Sys2Proof

/-- Why a word is no command. There is one reason: it matches no row of R85 (R88). -/
inductive DecodeError where
  /-- ILLEGAL: the block completes such a word with range violation ILLEGAL_CMD (R88). -/
  | illegalCmd
deriving DecidableEq, Repr

/-- `w bits[hi:lo]` read as an unsigned integer field of 8 bits starting at bit `lo` (spec/00_scope.md R10 (a)). -/
def field8 (w : Word) (lo : Nat) : BitVec 8 := w.extractLsb' lo 8

/-- The 16-bit field of a word's low half. -/
def field16 (w : Word) : BitVec 16 := w.extractLsb' 0 16

/-- The decoder of R91. `BitVec.toInt` is the `sext_N` of spec/00_scope.md R11. -/
def decode (w : Word) : Except DecodeError Instr :=
  if field8 w 24 = 0x10#8 then
    .ok (.xbyte (field8 w 16) (field8 w 0).toInt (field8 w 8).toInt)
  else if field8 w 24 = 0x14#8 ∧ field8 w 8 = 0#8 then
    .ok (.xbyteD (field8 w 16) (field8 w 0).toInt)
  else if field8 w 24 = 0x20#8 then
    .ok (.rdbits (field16 w).toInt (field8 w 16).toInt)
  else if field8 w 24 = 0x28#8 then
    .ok (.rdbitsL (field16 w).toInt (field8 w 16).toInt)
  else if field8 w 24 = 0x30#8 then
    .ok (.unpack (field8 w 16).toInt (field16 w).toInt)
  else if w = 0x40000000#32 then
    .ok .crock
  else
    .error .illegalCmd

/-- A format X word from its top byte (R83). -/
def formatX (top byte n off : BitVec 8) : Word := top ++ byte ++ n ++ off

/-- A format R word from its top byte (R82). -/
def formatR (top n : BitVec 8) (off : BitVec 16) : Word := top ++ n ++ off

/-- The word of a command, by the 32-character patterns of R85; an operand that does not fit its field (a command that
is not well formed) is cut to the field. -/
def encode : Instr → Word
  | .xbyte byte offset length => formatX 0x10#8 byte (BitVec.ofInt 8 length) (BitVec.ofInt 8 offset)
  | .xbyteD byte offset => formatX 0x14#8 byte 0#8 (BitVec.ofInt 8 offset)
  | .rdbits bitOffset bitLength => formatR 0x20#8 (BitVec.ofInt 8 bitLength) (BitVec.ofInt 16 bitOffset)
  | .rdbitsL bitOffset bitLength => formatR 0x28#8 (BitVec.ofInt 8 bitLength) (BitVec.ofInt 16 bitOffset)
  | .unpack bits bitOffset => formatR 0x30#8 (BitVec.ofInt 8 bits) (BitVec.ofInt 16 bitOffset)
  | .crock => formatR 0x40#8 0#8 0#16

/-- The command word whose low `nbits` bits are those of `w` and whose other bits are 0. -/
def tableWord (nbits w : Nat) : Word := BitVec.ofNat 32 (w % 2 ^ nbits)

/-- The command the decoder reads from a word given as spec/opcode_table.json numbers its bits. A command word is one
32-bit register value, so there is no byte order to choose (R80). -/
def decodeTableWord (nbits w : Nat) : Option Instr :=
  match decode (tableWord nbits w) with
  | .ok i => some i
  | .error _ => none

end Sys2Proof
end

