-- ==== Sys2Proof/Config.lean ====
section
/-! DEFINITION. What an implementation of the NBU fixes (the capacities of spec/00_scope.md R7) and the free
values (spec/93_implementation_defined.md U3, U4, U5). The constants of R6 stand as literals in the meanings, as in
the spec's own pseudocode. -/

namespace Sys2Proof

/-- The capacities of the two buffers, which the spec leaves open: a model takes them as arguments (R7, U14). -/
structure Config where
  /-- NBYTES_MAX, the capacity of BUF in bytes. -/
  nbytesMax : Nat
  /-- NOUT_MAX, the capacity of OUT in bytes. -/
  noutMax : Nat
deriving DecidableEq, Repr

/-- The constraints on the capacities: an identifier fits BUF and a Crockford text fits OUT (R7); OUT_LEN, 32 bits
wide, can hold the length of every sequence that fits OUT (DEDUCED from R31, safe: log entry 2). -/
abbrev Config.Wf (c : Config) : Prop :=
  21 ≤ c.nbytesMax ∧ 34 ≤ c.noutMax ∧ c.noutMax < 2 ^ 32

/-- The capacities the spec suggests (R7): DESIGN CHOICE, unsafe (log entry 1). -/
def Config.suggested : Config := { nbytesMax := 32, noutMax := 512 }

/-- The value of the n-th unspecified register read: nothing constrains it (R39, U3; log entry 8). -/
opaque Config.freeWord : Nat → Word

/-- The value of the n-th unspecified OUT byte read: nothing constrains it (R30, R39, U3, U4; log entry 8). -/
opaque Config.freeByte : Nat → Byte

end Sys2Proof
end

