-- ==== Sys2Proof/Machine/State.lean ====
section
/-! DEFINITION. The state of the NBU (spec/10_state.md R20), the actions of its host (spec/20_memory.md R58), the
reasons a step can stop, and the state after reset (spec/10_state.md R40). -/

namespace Sys2Proof.Machine

/-- The listed bytes of a byte space, addresses strictly rising (Machine/Ops.lean, `Memory.wf`, `Memory.rising`). -/
abbrev Memory := List Host.Cell

/-- The host's actions (R58), and the write to OUT that R30 and R68 say is ignored (log entry 11). -/
inductive HostAction where
  /-- HostWriteReg(k, v). -/
  | writeReg (k : Nat) (v : Word)
  /-- HostReadReg(k). -/
  | readReg (k : Nat)
  /-- HostWriteBuf(i, v). -/
  | writeBuf (i : Nat) (v : Byte)
  /-- HostReadBuf(i). -/
  | readBuf (i : Nat)
  /-- A host write to OUT[j], which changes nothing (R30, R68). -/
  | writeOut (j : Nat) (v : Byte)
  /-- HostReadOut(j). -/
  | readOut (j : Nat)
  /-- Reset (R58, R240). -/
  | reset
deriving DecidableEq, Repr

/-- One event still to happen: which agent moves next, and what the host does (log entry 5). -/
inductive Event where
  /-- The host performs one action. -/
  | host (a : HostAction)
  /-- The block takes a turn: it completes the command in flight, or is idle. -/
  | block
  /-- WAIT of R94: the host reads STATUS until it returns DONE = 1 (log entry 12). -/
  | wait
deriving DecidableEq, Repr

/-- A value a host read returned. -/
inductive Reply where
  /-- From a register. -/
  | word (v : Word)
  /-- From a byte space. -/
  | byte (v : Byte)
deriving DecidableEq, Repr

/-- Why the machine stops with a fault: the host broke the hazard rule R250. -/
inductive Fault where
  /-- Raised by a host write (to a register, to BUF or to OUT) while STATUS.BUSY = 1 (R250, U1). Safe. -/
  | hostWriteWhileBusy
  /-- Raised by a host read of anything but STATUS while STATUS.BUSY = 1 (R250, U2). Safe. -/
  | hostReadWhileBusy
deriving DecidableEq, Repr

/-- Why a step has no meaning. -/
inductive Refusal where
  /-- Raised by an arm of `exec` whose command has no meaning yet; no arm does. Safe. -/
  | notModelled (mnemonic : String)
  /-- Raised by a host access to a register number above 5 (R58, U6). Safe. -/
  | noSuchRegister
  /-- Raised by a host access to BUF at or above NBYTES_MAX (R58, U6). Safe. -/
  | noSuchBufIndex
  /-- Raised by a host access to OUT at or above NOUT_MAX (R58, U6). Safe. -/
  | noSuchOutIndex
deriving DecidableEq, Repr

/-- The architectural state (R20), the capacities (R7), and three fields of the model's own. -/
structure State where
  /-- NBYTES_MAX and NOUT_MAX: parameters of the machine, changed by nothing (R7; log entry 1). -/
  cfg : Config
  /-- CMD, register 0 (R21). -/
  cmd : Word
  /-- STATUS, register 1 (R22); its fields are in Machine/Flags.lean. -/
  status : Word
  /-- LEN, register 2 (R28). -/
  len : Word
  /-- BUF (R29); a byte that is not listed is 0. -/
  buf : Memory
  /-- RESULT, read through RESULT_LO and RESULT_HI (R26). -/
  result : Scalar
  /-- OUT (R30); a byte that is not listed has no specified contents (log entry 4). -/
  out : Memory
  /-- OUT_LEN, register 5 (R31). -/
  outLen : Word
  /-- The model's own: the events still to happen, the next one first (log entry 5). -/
  inputs : List Event
  /-- The model's own: what host reads have returned, the latest first (log entry 7). -/
  replies : List Reply
  /-- The model's own: how many free values have been drawn (log entry 8). -/
  draws : Nat
deriving DecidableEq, Repr

/-- The state after reset of an NBU with the given capacities (R40). RESULT and OUT_LEN are unspecified there: 0 is a
DESIGN CHOICE (log entry 3), which no host read shows, because STATUS.RK = 0. -/
def State.resetWith (cfg : Config) : State where
  cfg := cfg
  cmd := 0#32
  status := 0#32
  len := 0#32
  buf := []
  result := 0#53
  out := []
  outLen := 0#32
  inputs := []
  replies := []
  draws := 0

/-- The state after reset, with the capacities the spec suggests (R40, R7; log entry 1). -/
def State.reset : State := State.resetWith Config.suggested

end Sys2Proof.Machine
end

