-- ==== Sys2Proof/Machine/Flags.lean ====
section
/-! DEFINITION. STATUS: its fields (spec/10_state.md R22), its values (R23) and the cause codes
(spec/60_exceptions.md R201). These are the only flags of the block. -/

namespace Sys2Proof.Machine

/-- The causes of a range violation (R201). Codes 0 and 11 to 15 are never produced as a cause (U7). -/
inductive Cause where
  | illegalCmd | lenDomain | offDomain | byteOverflow | pastEnd | offNeg | bitsDomain | outRange | badIdLen | bufCap
deriving DecidableEq, Repr

/-- The 4-bit code of a cause (R201). -/
def Cause.code : Cause → BitVec 4
  | .illegalCmd => 1#4
  | .lenDomain => 2#4
  | .offDomain => 3#4
  | .byteOverflow => 4#4
  | .pastEnd => 5#4
  | .offNeg => 6#4
  | .bitsDomain => 7#4
  | .outRange => 8#4
  | .badIdLen => 9#4
  | .bufCap => 10#4

/-- The kinds of result RK tells apart (R22); the value 3 is never produced (U7). -/
inductive ResultKind where
  | none | scalar | sequence
deriving DecidableEq, Repr

/-- The 2-bit value of RK (R22). -/
def ResultKind.bits : ResultKind → BitVec 2
  | .none => 0#2
  | .scalar => 1#2
  | .sequence => 2#2

/-- STATUS from its fields, the reserved bits 0 (R22, R43). -/
def Status.pack (busy done err : Bool) (rk : ResultKind) (cause : BitVec 4) : Word :=
  0#20 ++ cause ++ 0#2 ++ rk.bits ++ 0#1 ++ BitVec.ofBool err ++ BitVec.ofBool done ++ BitVec.ofBool busy

/-- STATUS.BUSY, bit 0. -/
def Status.busy (w : Word) : Bool := w.getLsbD 0

/-- STATUS.DONE, bit 1. -/
def Status.done (w : Word) : Bool := w.getLsbD 1

/-- STATUS.ERR, bit 2. -/
def Status.err (w : Word) : Bool := w.getLsbD 2

/-- STATUS.RK, bits 5:4. -/
def Status.rk (w : Word) : BitVec 2 := w.extractLsb' 4 2

/-- STATUS.CAUSE, bits 11:8. -/
def Status.cause (w : Word) : BitVec 4 := w.extractLsb' 8 4

/-- At issue (R23). -/
def Status.issued : Word := Status.pack true false false .none 0#4

/-- At completion with a scalar result (R23). -/
def Status.doneScalar : Word := Status.pack false true false .scalar 0#4

/-- At completion with a sequence result (R23). -/
def Status.doneSequence : Word := Status.pack false true false .sequence 0#4

/-- At completion with a range violation (R23, R210). -/
def Status.violation (c : Cause) : Word := Status.pack false true true .none c.code

end Sys2Proof.Machine
end

