-- ==== Sys2Proof/Machine/Ops.lean ====
section
/-! DEFINITION. The named operations over the byte spaces and the registers: reading and writing a byte space, the
issue of a command (spec/10_state.md R23), its three ways to complete, error entry among them (spec/60_exceptions.md
R210), and the values a host read can see (spec/10_state.md R39). -/

namespace Sys2Proof.Machine

/-! ## Byte spaces -/

/-- What an unlisted byte of BUF reads as: its reset contents (R40). -/
def Memory.unlisted : Byte := 0#8

/-- The listed contents at an address, if any. -/
def Memory.find? : Memory → Nat → Option Byte
  | [], _ => none
  | (b, w) :: rest, a => if a = b then some w else Memory.find? rest a

/-- One byte of BUF. -/
def Memory.read (m : Memory) (a : Nat) : Byte := (Memory.find? m a).getD Memory.unlisted

/-- The cells of one byte: none for the value an unlisted address reads as. -/
def Memory.cellOf (a : Nat) (v : Byte) : Memory := if v = Memory.unlisted then [] else [(a, v)]

/-- Store one byte in BUF, keeping the canonical form. -/
def Memory.write : Memory → Nat → Byte → Memory
  | [], a, v => Memory.cellOf a v
  | (b, w) :: rest, a, v =>
    if a < b then Memory.cellOf a v ++ (b, w) :: rest
    else if a = b then Memory.cellOf a v ++ rest
    else (b, w) :: Memory.write rest a v

/-- The cells of a byte sequence laid out from an address on. -/
def Memory.ofBytes : Nat → List Byte → Memory
  | _, [] => []
  | a, v :: rest => (a, v) :: Memory.ofBytes (a + 1) rest

/-- Addresses strictly rise and none lies below `lo`. -/
def Memory.risingFrom : Nat → Memory → Bool
  | _, [] => true
  | lo, (a, _) :: rest => decide (lo ≤ a) && Memory.risingFrom (a + 1) rest

/-- Addresses strictly rise. -/
def Memory.rising (m : Memory) : Bool := Memory.risingFrom 0 m

/-- No entry equals what an unlisted address reads as. -/
def Memory.noDefault (m : Memory) : Bool := m.all fun c => decide (c.2 ≠ Memory.unlisted)

/-- The canonical form of BUF. -/
def Memory.wf (m : Memory) : Bool := Memory.rising m && Memory.noDefault m

/-- Every listed address lies below the capacity. -/
def Memory.below (n : Nat) (m : Memory) : Bool := m.all fun c => decide (c.1 < n)

/-! ## The fields of STATUS in a state -/

/-- STATUS.BUSY = 1. -/
def State.busy (s : State) : Bool := Status.busy s.status

/-! ## Issue and completion -/

/-- The host's write to CMD while BUSY = 0: the word is stored and a command issued (R23, R37). This also ends an
earlier error: there is no other return from one (R212). -/
def State.issue (s : State) (w : Word) : State := { s with cmd := w, status := Status.issued }

/-- Error entry, the block's one exception: only STATUS changes (R210). -/
def State.raise (s : State) (c : Cause) : State := { s with status := Status.violation c }

/-- Completion with a scalar result (R23). -/
def State.returnScalar (s : State) (v : Nat) : State :=
  { s with result := BitVec.ofNat 53 v, status := Status.doneScalar }

/-- Completion with a sequence result (R23): OUT[0..] holds the bytes, OUT_LEN their number, and OUT from OUT_LEN on
has no specified contents (R30, U4). -/
def State.returnSequence (s : State) (bytes : List Byte) : State :=
  { s with
    out := Memory.ofBytes 0 bytes
    outLen := BitVec.ofNat 32 bytes.length
    status := Status.doneSequence }

/-! ## What a host read sees -/

/-- RESULT_LO: RESULT bits 31:0 (R26). -/
def State.resultLo (s : State) : Word := s.result.extractLsb' 0 32

/-- RESULT_HI: RESULT bits 52:32 in bits 20:0, bits 31:21 zero (R26, R43). -/
def State.resultHi (s : State) : Word := (s.result.extractLsb' 32 21).setWidth 32

/-- The specified value of register `k` (k in 0..5), if R39 gives it one. -/
def State.regValue? (s : State) : Nat → Option Word
  | 0 => some s.cmd
  | 1 => some s.status
  | 2 => some s.len
  | 3 => if Status.rk s.status = ResultKind.scalar.bits then some s.resultLo else none
  | 4 => if Status.rk s.status = ResultKind.scalar.bits then some s.resultHi else none
  | 5 => if Status.rk s.status = ResultKind.sequence.bits then some s.outLen else none
  | _ => none

/-- The specified value of OUT[j], if R39 gives it one (R58). -/
def State.outValue? (s : State) (j : Nat) : Option Byte :=
  if Status.rk s.status = ResultKind.sequence.bits ∧ j < s.outLen.toNat then Memory.find? s.out j else none

/-- An unspecified register value: free, but for the reserved bits 31:21 of RESULT_HI, which read 0 in every state
(R39, R43). -/
def freeRegister (k draw : Nat) : Word :=
  if k = 4 then ((Config.freeWord draw).extractLsb' 0 21).setWidth 32 else Config.freeWord draw

/-- A host read returns a value. -/
def State.answer (s : State) (r : Reply) : State := { s with replies := r :: s.replies }

/-- A host read of a register: its value, or a fresh free value where it is unspecified (R39, U3). -/
def State.answerRegister (s : State) (k : Nat) : State :=
  match s.regValue? k with
  | some v => s.answer (.word v)
  | none => { s with replies := .word (freeRegister k s.draws) :: s.replies, draws := s.draws + 1 }

/-- A host read of OUT[j]: its value, or a fresh free value where it is unspecified (R39, U3, U4). -/
def State.answerOut (s : State) (j : Nat) : State :=
  match s.outValue? j with
  | some v => s.answer (.byte v)
  | none => { s with replies := .byte (Config.freeByte s.draws) :: s.replies, draws := s.draws + 1 }

end Sys2Proof.Machine
end

