-- ==== Sys2Proof/Machine/Operands.lean ====
section
/-! DEFINITION. The operands the commands read: the bit stream of a byte sequence (spec/20_memory.md R53 to R55, R70),
the single-byte span (spec/40_byte_extractor.md R111), an integer of the stream (spec/41_bit_reader.md R133, R137) and
the groups of the unpacker (spec/42_bit_unpacker.md R162, R165). Every value is an exact integer (spec/00_scope.md R9);
Lean's `/` and `%` on Int are R9's `floor(a / b)` and `a mod b` for a positive divisor. -/

namespace Sys2Proof.Machine

/-- `ceil(a / b)` for b > 0 (R9). -/
def ceilDiv (a b : Int) : Int := -((-a) / b)

/-- `xbyte(b, o, n)` of R111, for o in 0..7, n ≥ 0, o + n ≤ 8. -/
def xbyte (b : Byte) (o n : Int) : Nat := (b.toNat >>> (8 - o - n).toNat) &&& (2 ^ n.toNat - 1)

/-- MemRead(i, 1) of R54: BUF[i]. Used only for 0 ≤ i < LEN, as the checks of R135 guarantee (log entry 14). -/
def memRead (s : State) (i : Int) : Byte := Memory.read s.buf i.toNat

/-- MemReadLoose(i, 1) of R55: BUF[i] inside the input sequence, 0 outside it. -/
def memReadLoose (s : State) (i : Int) : Byte :=
  if 0 ≤ i ∧ i < (s.len.toNat : Int) then Memory.read s.buf i.toNat else 0#8

/-- The stream bit at position `p` under a byte-read function (R53). -/
def bitAt (rd : Int → Byte) (p : Int) : Nat := ((rd (p / 8)).toNat >>> (7 - p % 8).toNat) &&& 1

/-- `readbits_rd(off, n)`, the normative bit-level definition (R133). -/
def readBits (rd : Int → Byte) (off : Int) (n : Nat) : Nat :=
  ((List.range n).map fun (k : Nat) => bitAt rd (off + k) * 2 ^ (n - 1 - k)).sum

/-- The full-byte steps of R137's algorithm: `m` bytes from index `idx` on. -/
def fullBytes (rd : Int → Byte) (idx : Int) (result : Nat) : Nat → Nat
  | 0 => result
  | m + 1 => fullBytes rd (idx + 1) (result * 256 + (rd idx).toNat) m

/-- `readbits_alg(off, n)`, the byte-wise algorithm (R137): the first byte's bits, then `rem / 8` full bytes, then the
`rem % 8` bits of a final partial byte. -/
def readBitsAlg (rd : Int → Byte) (off : Int) (n : Nat) : Nat :=
  let idx := off / 8
  let o := off % 8
  let k := min n (8 - o).toNat
  let rem := n - k
  let result := fullBytes rd (idx + 1) (xbyte (rd idx) o k) (rem / 8)
  if rem % 8 > 0 then
    result * 2 ^ (rem % 8) + ((rd (idx + 1 + (rem / 8 : Nat))).toNat >>> (8 - rem % 8))
  else
    result

/-- LEN > NBYTES_MAX, the condition of BUF_CAP (R28, R201). -/
def State.lenOverCapacity (s : State) : Bool := decide (s.cfg.nbytesMax < s.len.toNat)

/-- The output length N of the unpacker (R162). -/
def groupCount (s : State) (bits off : Int) : Int := ceilDiv (8 * (s.len.toNat : Int) - off) bits

/-- group(i) of R165. -/
def group (s : State) (bits off : Int) (i : Nat) : Nat := readBits (memReadLoose s) (off + i * bits) bits.toNat

end Sys2Proof.Machine
end

