-- ==== Sys2Proof/Machine/BitReader.lean ====
section
/-! DEFINITION. The Bit Reader commands RDBITS and RDBITS.L (spec/41_bit_reader.md R131, R132), at completion. -/

namespace Sys2Proof.Machine

/-- RDBITS bitOffset, bitLength: strict read (R131, the checks in the order of R135). -/
def execRdbits (bitOffset bitLength : Int) (s : State) : Host.Outcome State Fault Refusal :=
  if s.lenOverCapacity then .next (s.raise .bufCap)
  else if bitLength < 0 ∨ bitLength > 53 then .next (s.raise .lenDomain)
  else if bitOffset < 0 then .next (s.raise .offNeg)
  else if bitOffset + bitLength > 8 * (s.len.toNat : Int) then .next (s.raise .pastEnd)
  else .next (s.returnScalar (readBits (memRead s) bitOffset bitLength.toNat))

/-- RDBITS.L bitOffset, bitLength: loose read (R132). -/
def execRdbitsL (bitOffset bitLength : Int) (s : State) : Host.Outcome State Fault Refusal :=
  if s.lenOverCapacity then .next (s.raise .bufCap)
  else if bitLength < 0 ∨ bitLength > 53 then .next (s.raise .lenDomain)
  else .next (s.returnScalar (readBits (memReadLoose s) bitOffset bitLength.toNat))

end Sys2Proof.Machine
end

