-- ==== Sys2Proof/Machine/BitUnpacker.lean ====
section
/-! DEFINITION. The Bit Unpacker command UNPACK (spec/42_bit_unpacker.md R161), at completion. -/

namespace Sys2Proof.Machine

/-- The first `n` groups, each right-aligned in its own byte (R165). -/
def groups (s : State) (bits off : Int) (n : Nat) : List Byte :=
  (List.range n).map fun i => BitVec.ofNat 8 (group s bits off i)

/-- UNPACK bits, bitOffset (R161, the checks in the order of R163). -/
def execUnpack (bits bitOffset : Int) (s : State) : Host.Outcome State Fault Refusal :=
  if s.lenOverCapacity then .next (s.raise .bufCap)
  else if bits < 1 ∨ bits > 8 then .next (s.raise .bitsDomain)
  else if groupCount s bits bitOffset < 0 ∨ groupCount s bits bitOffset > (s.cfg.noutMax : Int) then
    .next (s.raise .outRange)
  else .next (s.returnSequence (groups s bits bitOffset (groupCount s bits bitOffset).toNat))

end Sys2Proof.Machine
end

