-- ==== Sys2Proof/Machine/ByteExtractor.lean ====
section
/-! DEFINITION. The single-byte extractor commands XBYTE and XBYTE.D (spec/40_byte_extractor.md R112, R114), at
completion. Neither looks at LEN or BUF. -/

namespace Sys2Proof.Machine

/-- XBYTE byte, offset, length (R112). -/
def execXbyte (byte : Byte) (offset length : Int) (s : State) : Host.Outcome State Fault Refusal :=
  if offset < 0 ∨ offset > 7 then .next (s.raise .offDomain)
  else if length < 0 then .next (s.raise .lenDomain)
  else if offset + length > 8 then .next (s.raise .byteOverflow)
  else .next (s.returnScalar (xbyte byte offset length))

/-- XBYTE.D byte, offset: all bits from the offset to the end of the byte (R114). -/
def execXbyteD (byte : Byte) (offset : Int) (s : State) : Host.Outcome State Fault Refusal :=
  if offset < 0 ∨ offset > 7 then .next (s.raise .offDomain)
  else .next (s.returnScalar (xbyte byte offset (8 - offset)))

end Sys2Proof.Machine
end

