-- ==== Sys2Proof/Machine/Crockford.lean ====
section
/-! DEFINITION. The Crockford base-32 encoder command CROCK (spec/43_crockford_encoder.md R180), at completion. -/

namespace Sys2Proof.Machine

/-- The 32 character codes of the alphabet 0123456789ABCDEFGHJKMNPQRSTVWXYZ, index 0 first (R182). The codes are
PRESUMED: the spec takes them from general knowledge (log entry 13). -/
def alphabet : List Byte :=
  [0x30#8, 0x31#8, 0x32#8, 0x33#8, 0x34#8, 0x35#8, 0x36#8, 0x37#8, 0x38#8, 0x39#8, 0x41#8, 0x42#8, 0x43#8, 0x44#8,
    0x45#8, 0x46#8] ++
  [0x47#8, 0x48#8, 0x4A#8, 0x4B#8, 0x4D#8, 0x4E#8, 0x50#8, 0x51#8, 0x52#8, 0x53#8, 0x54#8, 0x56#8, 0x57#8, 0x58#8,
    0x59#8, 0x5A#8]

/-- `alpha(v)` for v in 0..31 (R182); a 5-bit group is never above 31. -/
def alpha (v : Nat) : Byte := alphabet.getD v 0#8

/-- The 34 characters of an identifier (R180, R184). -/
def crockText (s : State) : List Byte := (List.range 34).map fun i => alpha (group s 5 (-2) i)

/-- CROCK (R180, the checks in the order of R183). -/
def execCrock (s : State) : Host.Outcome State Fault Refusal :=
  if s.lenOverCapacity then .next (s.raise .bufCap)
  else if s.len.toNat ≠ 21 then .next (s.raise .badIdLen)
  else .next (s.returnSequence (crockText s))

end Sys2Proof.Machine
end

