-- ==== Sys2Proof/Machine/Dispatch.lean ====
section
/-! DEFINITION. One arm per command of spec/opcode_table.json: what the block does when it completes that command. -/

namespace Sys2Proof.Machine

def exec (i : Instr) (s : State) : Host.Outcome State Fault Refusal :=
  match i with
  | .xbyte byte offset length => Sys2Proof.Machine.execXbyte byte offset length s
  | .xbyteD byte offset => Sys2Proof.Machine.execXbyteD byte offset s
  | .rdbits bitOffset bitLength => Sys2Proof.Machine.execRdbits bitOffset bitLength s
  | .rdbitsL bitOffset bitLength => Sys2Proof.Machine.execRdbitsL bitOffset bitLength s
  | .unpack bits bitOffset => Sys2Proof.Machine.execUnpack bits bitOffset s
  | .crock => Sys2Proof.Machine.execCrock s

end Sys2Proof.Machine
end

