-- ==== Sys2Proof/Machine/HostPort.lean ====
section
/-! DEFINITION. The host's side of the block: each action of spec/20_memory.md R58 as one step, under the hazard rule
spec/70_reset_and_hazards.md R250. -/

namespace Sys2Proof.Machine

/-- The fault of an action that the hazard rule forbids while BUSY = 1: every action but a read of STATUS and Reset
(R250, U1, U2; log entry 10). -/
def HostAction.hazard? : HostAction → Option Fault
  | .writeReg _ _ => some .hostWriteWhileBusy
  | .writeBuf _ _ => some .hostWriteWhileBusy
  | .writeOut _ _ => some .hostWriteWhileBusy
  | .readReg k => if k = 1 then none else some .hostReadWhileBusy
  | .readBuf _ => some .hostReadWhileBusy
  | .readOut _ => some .hostReadWhileBusy
  | .reset => none

/-- The refusal of an access outside the stated ranges (R58, U6). -/
def HostAction.outOfRange? (cfg : Config) : HostAction → Option Refusal
  | .writeReg k _ => if k > 5 then some .noSuchRegister else none
  | .readReg k => if k > 5 then some .noSuchRegister else none
  | .writeBuf i _ => if cfg.nbytesMax ≤ i then some .noSuchBufIndex else none
  | .readBuf i => if cfg.nbytesMax ≤ i then some .noSuchBufIndex else none
  | .writeOut j _ => if cfg.noutMax ≤ j then some .noSuchOutIndex else none
  | .readOut j => if cfg.noutMax ≤ j then some .noSuchOutIndex else none
  | .reset => none

/-- A host write to register `k` in 0..5 while BUSY = 0 (R68): CMD issues, LEN stores, the others ignore it. -/
def State.writeRegister (s : State) (k : Nat) (v : Word) : State :=
  match k with
  | 0 => s.issue v
  | 2 => { s with len := v }
  | _ => s

/-- Reset (R40, R240, R243): the architectural state as after reset, the command in flight abandoned; the capacities,
the host's remaining actions, its replies and the count of free values stay (log entry 16). -/
def State.hostReset (s : State) : State :=
  { State.resetWith s.cfg with inputs := s.inputs, replies := s.replies, draws := s.draws }

/-- The effect of an action that is in range and permitted (R58, R68). -/
def State.perform (s : State) : HostAction → State
  | .writeReg k v => s.writeRegister k v
  | .readReg k => s.answerRegister k
  | .writeBuf i v => { s with buf := Memory.write s.buf i v }
  | .readBuf i => s.answer (.byte (Memory.read s.buf i))
  | .writeOut _ _ => s
  | .readOut j => s.answerOut j
  | .reset => s.hostReset

/-- One host action: refused when out of range (U6; checked first, log entry 9), a fault when it breaks the hazard rule
(R250), else its effect. -/
def hostAct (a : HostAction) (s : State) : Host.Outcome State Fault Refusal :=
  match a.outOfRange? s.cfg with
  | some r => .refused r
  | none =>
    match if s.busy then a.hazard? else none with
    | some f => .fault f
    | none => .next (s.perform a)

end Sys2Proof.Machine
end

