-- ==== Sys2Proof/Machine/Block.lean ====
section
/-! DEFINITION. The block's own step (spec/10_state.md R23, R42; spec/70_reset_and_hazards.md R255), one poll of the
host's WAIT (spec/30_encoding.md R94), and which agent moves (log entry 5). -/

namespace Sys2Proof.Machine

/-- The completion of the command in CMD (R23, R36): the decoded command's meaning, or ILLEGAL_CMD (R88). -/
def complete (s : State) : Host.Outcome State Fault Refusal :=
  match decode s.cmd with
  | .ok i => exec i s
  | .error _ => .next (s.raise .illegalCmd)

/-- A turn of the block: the command in flight completes; between a completion and the next issue the block does
nothing (R62 (d)). -/
def blockTurn (s : State) : Host.Outcome State Fault Refusal :=
  if s.busy then complete s else .next s

/-- One poll of WAIT: the host reads STATUS; until that returns DONE = 1 the block gets a turn and the host polls again
(R94, R255; log entry 12). -/
def pollStatus (rest : List Event) (s : State) : Host.Outcome State Fault Refusal :=
  if Status.done s.status then .next ({ s with inputs := rest }.answer (.word s.status))
  else .next ({ s with inputs := .block :: .wait :: rest }.answer (.word s.status))

/-- The next event happens. With no event left the host is silent: a command in flight completes all the same (R255),
and an idle block stays as it is. -/
def nextEvent (s : State) : Host.Outcome State Fault Refusal :=
  match s.inputs with
  | [] => blockTurn s
  | .block :: rest => blockTurn { s with inputs := rest }
  | .host a :: rest => hostAct a { s with inputs := rest }
  | .wait :: rest => pollStatus rest s

/-- The state in which `w` has just been issued and it is the block's turn (log entry 6). -/
def State.issuedNext (s : State) (w : Word) : State :=
  { s.issue w with inputs := .block :: s.inputs }

end Sys2Proof.Machine
end

