-- ==== Sys2Proof/Machine/Step.lean ====
section
/-! DEFINITION. One step of the machine: the next event, by the host or by the block. -/

namespace Sys2Proof.Machine

/-- One step. -/
def step (s : State) : Host.Outcome State Fault Refusal := nextEvent s

/-- `s` with the given word issued as the command in flight and the block to move next: CMD holds the word, STATUS is
BUSY (spec/10_state.md R23; log entry 6). -/
def State.withFetchWord (s : State) (nbits w : Nat) : State := s.issuedNext (tableWord nbits w)

end Sys2Proof.Machine
end

