-- ==== Sys2Proof/Safety.lean ====
section
/-! DEFINITION. What claims about the machine are stated in: the STATUS values and their rules, the invariant of every
step, the frames of the commands, whose turn it is, and the integers the spec's rules speak of. -/

namespace Sys2Proof.Machine

/-! ## Numbers as the spec writes them -/

/-- `bits[hi:lo]` of a word (spec/00_scope.md R10 (a)). -/
def bitsOf (w : Word) (hi lo : Nat) : Nat := (w.toNat >>> lo) &&& (2 ^ (hi - lo + 1) - 1)

/-- `sext_N(v)` (spec/00_scope.md R11). -/
def sext (N v : Nat) : Int := if v < 2 ^ (N - 1) then (v : Int) else (v : Int) - 2 ^ N

/-- The big-endian integer of the `m` bytes from index `a` on (spec/20_memory.md R52). -/
def bigEndian (rd : Int → Byte) (a : Int) (m : Nat) : Nat :=
  ((List.range m).map fun (j : Nat) => (rd (a + j)).toNat * 256 ^ (m - 1 - j)).sum

/-- The bytes of the input sequence, BUF[0..LEN-1] (spec/10_state.md R28). -/
def State.inputBytes (s : State) : List Nat :=
  (List.range s.len.toNat).map fun i => (Memory.read s.buf i).toNat

/-- The bytes a host reads from OUT[0..OUT_LEN-1], each with its specified value if it has one. -/
def State.outSequence (s : State) : List (Option Byte) := (List.range s.outLen.toNat).map s.outValue?

/-! ## STATUS -/

/-- The reachable values of STATUS (spec/10_state.md R23). -/
def Status.reachable : List Word :=
  [0x0#32, 0x1#32, 0x12#32, 0x22#32, 0x106#32, 0x206#32, 0x306#32, 0x406#32, 0x506#32, 0x606#32, 0x706#32, 0x806#32,
    0x906#32, 0xA06#32]

/-- The rules the fields of STATUS obey in every reachable state (spec/10_state.md R24). -/
structure Status.Rules (w : Word) : Prop where
  busy : Status.busy w = true → Status.done w = false ∧ Status.err w = false ∧ Status.rk w = 0#2 ∧ Status.cause w = 0#4
  err : Status.err w = true → Status.done w = true ∧ Status.rk w = 0#2 ∧ Status.cause w ≠ 0#4
  noErr : Status.err w = false → Status.cause w = 0#4
  success : Status.done w = true → Status.err w = false → Status.rk w = 1#2 ∨ Status.rk w = 2#2
  kind : Status.rk w ≠ 0#2 → Status.done w = true ∧ Status.err w = false

/-! ## The commands by the kind of their result (spec/10_state.md R23) -/

/-- XBYTE, XBYTE.D, RDBITS and RDBITS.L return in RESULT. -/
def scalarCommand : Instr → Bool
  | .xbyte _ _ _ => true
  | .xbyteD _ _ => true
  | .rdbits _ _ => true
  | .rdbitsL _ _ => true
  | .unpack _ _ => false
  | .crock => false

/-- The command word in CMD is a legal one whose result has this kind. -/
def State.cmdIs (s : State) (scalar : Bool) : Bool :=
  match decode s.cmd with
  | .ok i => scalarCommand i == scalar
  | .error _ => false

/-- The causes each command can raise (spec/60_exceptions.md R202). -/
def possibleCauses : Instr → List Cause
  | .xbyte _ _ _ => [.lenDomain, .offDomain, .byteOverflow]
  | .xbyteD _ _ => [.offDomain]
  | .rdbits _ _ => [.lenDomain, .pastEnd, .offNeg, .bufCap]
  | .rdbitsL _ _ => [.lenDomain, .bufCap]
  | .unpack _ _ => [.bitsDomain, .outRange, .bufCap]
  | .crock => [.badIdLen, .bufCap]

/-! ## The invariant -/

/-- What every step keeps: legal capacities, canonical byte spaces inside them, a reachable STATUS whose RK agrees with
the command in CMD, and, while RK = 2, an OUT_LEN inside OUT with every byte below it specified. -/
structure State.Inv (s : State) : Prop where
  cfg : s.cfg.Wf
  bufWf : Memory.wf s.buf = true
  bufBelow : Memory.below s.cfg.nbytesMax s.buf = true
  outRising : Memory.rising s.out = true
  outBelow : Memory.below s.cfg.noutMax s.out = true
  status : s.status ∈ Status.reachable
  scalar : Status.rk s.status = 1#2 → s.cmdIs true = true
  sequence : Status.rk s.status = 2#2 → s.cmdIs false = true
  outLen : Status.rk s.status = 2#2 → s.outLen.toNat ≤ s.cfg.noutMax
  outListed : Status.rk s.status = 2#2 → ∀ j, j < s.outLen.toNat → (s.outValue? j).isSome = true

/-! ## Whose turn it is -/

/-- The block moves next in `s`, and `s0` is `s` with that turn taken off the events to come (log entry 5). -/
def BlockMoves (s s0 : State) : Prop :=
  (s.inputs = [] ∧ s0 = s) ∨ ∃ rest, s.inputs = .block :: rest ∧ s0 = { s with inputs := rest }

/-- The host performs `a` next in `s`, and `s0` is `s` with that action taken off the events to come. -/
def HostMoves (a : HostAction) (s s0 : State) : Prop :=
  ∃ rest, s.inputs = .host a :: rest ∧ s0 = { s with inputs := rest }

/-! ## Frames -/

/-- What no command touches: CMD, LEN, every byte of BUF (spec/10_state.md R37, R38), the capacities and the model's own
fields. -/
structure SameInput (s t : State) : Prop where
  cfg : t.cfg = s.cfg
  cmd : t.cmd = s.cmd
  len : t.len = s.len
  buf : ∀ a, Memory.read t.buf a = Memory.read s.buf a
  inputs : t.inputs = s.inputs
  replies : t.replies = s.replies
  draws : t.draws = s.draws

/-- OUT and OUT_LEN are as before: every byte of OUT holds what it held. -/
structure SameOut (s t : State) : Prop where
  out : ∀ j, Memory.find? t.out j = Memory.find? s.out j
  outLen : t.outLen = s.outLen

/-- A command that writes RESULT and STATUS only. -/
structure ScalarFrame (s t : State) : Prop where
  input : SameInput s t
  out : SameOut s t

/-- A command that writes OUT, OUT_LEN and STATUS only. -/
structure SequenceFrame (s t : State) : Prop where
  input : SameInput s t
  result : t.result = s.result

/-- A command that writes STATUS only (spec/60_exceptions.md R210). -/
structure ErrorFrame (s t : State) : Prop where
  input : SameInput s t
  out : SameOut s t
  result : t.result = s.result

end Sys2Proof.Machine
end

