-- ==== Sys2Proof/Certificates/Slice0/Obligations.lean ====
section
/-! DEFINITION. The statements for the provers. Each docstring names the rule of spec/ it formalises; log entries are
notes/assumptions/<n>.md. -/

open Sys2Proof Sys2Proof.Machine

/-! ## Command words -/

/-- The table of worked encodings, both ways (spec/30_encoding.md R95). -/
def Obligations.CommandWordsOfTheSpec : Prop :=
  (encode (.xbyte 0xE0#8 0 3) = 0x10E00300#32 ∧ decode 0x10E00300#32 = .ok (.xbyte 0xE0#8 0 3)) ∧
  (encode (.xbyte 0x3C#8 2 4) = 0x103C0402#32 ∧ decode 0x103C0402#32 = .ok (.xbyte 0x3C#8 2 4)) ∧
  (encode (.xbyteD 0xA5#8 (-1)) = 0x14A500FF#32 ∧ decode 0x14A500FF#32 = .ok (.xbyteD 0xA5#8 (-1))) ∧
  (encode (.xbyteD 0xA5#8 8) = 0x14A50008#32 ∧ decode 0x14A50008#32 = .ok (.xbyteD 0xA5#8 8)) ∧
  (encode (.xbyte 0xA5#8 4 5) = 0x10A50504#32 ∧ decode 0x10A50504#32 = .ok (.xbyte 0xA5#8 4 5)) ∧
  (encode (.rdbits 4 8) = 0x20080004#32 ∧ decode 0x20080004#32 = .ok (.rdbits 4 8)) ∧
  (encode (.rdbits 9 7) = 0x20070009#32 ∧ decode 0x20070009#32 = .ok (.rdbits 9 7)) ∧
  (encode (.unpack 1 0) = 0x30010000#32 ∧ decode 0x30010000#32 = .ok (.unpack 1 0)) ∧
  (encode (.unpack 5 (-5)) = 0x3005FFFB#32 ∧ decode 0x3005FFFB#32 = .ok (.unpack 5 (-5))) ∧
  (encode .crock = 0x40000000#32 ∧ decode 0x40000000#32 = .ok .crock) ∧
  (encode (.rdbitsL (-2) 5) = 0x2805FFFE#32 ∧ decode 0x2805FFFE#32 = .ok (.rdbitsL (-2) 5)) ∧
  (encode (.rdbits 0 54) = 0x20360000#32 ∧ decode 0x20360000#32 = .ok (.rdbits 0 54)) ∧
  (encode (.rdbits 0 (-1)) = 0x20FF0000#32 ∧ decode 0x20FF0000#32 = .ok (.rdbits 0 (-1)))

/-- A word selects a row iff its masked bits match, its operands are the row's free fields read as R84 and R11 say, and
a word that matches no row is illegal (spec/30_encoding.md R85). -/
def Obligations.RowsSelectByMaskAndMatch : Prop :=
  ∀ w : Word,
    (w &&& 0xFF000000#32 = 0x10000000#32 → decode w =
      .ok (.xbyte (BitVec.ofNat 8 (bitsOf w 23 16)) (sext 8 (bitsOf w 7 0)) (sext 8 (bitsOf w 15 8)))) ∧
    (w &&& 0xFF00FF00#32 = 0x14000000#32 → decode w =
      .ok (.xbyteD (BitVec.ofNat 8 (bitsOf w 23 16)) (sext 8 (bitsOf w 7 0)))) ∧
    (w &&& 0xFF000000#32 = 0x20000000#32 → decode w =
      .ok (.rdbits (sext 16 (bitsOf w 15 0)) (sext 8 (bitsOf w 23 16)))) ∧
    (w &&& 0xFF000000#32 = 0x28000000#32 → decode w =
      .ok (.rdbitsL (sext 16 (bitsOf w 15 0)) (sext 8 (bitsOf w 23 16)))) ∧
    (w &&& 0xFF000000#32 = 0x30000000#32 → decode w =
      .ok (.unpack (sext 8 (bitsOf w 23 16)) (sext 16 (bitsOf w 15 0)))) ∧
    (w &&& 0xFFFFFFFF#32 = 0x40000000#32 → decode w = .ok .crock) ∧
    (w &&& 0xFF000000#32 ≠ 0x10000000#32 → w &&& 0xFF00FF00#32 ≠ 0x14000000#32 →
      w &&& 0xFF000000#32 ≠ 0x20000000#32 → w &&& 0xFF000000#32 ≠ 0x28000000#32 →
      w &&& 0xFF000000#32 ≠ 0x30000000#32 → w &&& 0xFFFFFFFF#32 ≠ 0x40000000#32 →
      decode w = .error .illegalCmd)

/-- Encoding and decoding are inverse: every legal word is the encoding of what it decodes to, which is well formed, and
every command whose operands are representable is what its encoding decodes to (spec/30_encoding.md R91). -/
def Obligations.DecodeAndEncodeAreInverse : Prop :=
  (∀ (w : Word) (i : Instr), decode w = .ok i → encode i = w ∧ i.wellFormed = true) ∧
  (∀ i : Instr, i.wellFormed = true → decode (encode i) = .ok i)

/-- The illegal words are exactly those R88 lists; written to CMD such a word is accepted as a command and completes
with ILLEGAL_CMD, changing STATUS and nothing else (spec/30_encoding.md R88). -/
def Obligations.IllegalWordsAreThoseListed : Prop :=
  (∀ w : Word, decode w = .error .illegalCmd ↔
    bitsOf w 31 28 = 0 ∨ 5 ≤ bitsOf w 31 28 ∨ w.getLsbD 25 = true ∨ w.getLsbD 24 = true ∨
    (bitsOf w 31 28 = 1 ∧ w.getLsbD 27 = true) ∨
    (bitsOf w 31 28 = 1 ∧ w.getLsbD 26 = true ∧ bitsOf w 15 8 ≠ 0) ∨
    ((bitsOf w 31 28 = 2 ∨ bitsOf w 31 28 = 3 ∨ bitsOf w 31 28 = 4) ∧ w.getLsbD 26 = true) ∨
    ((bitsOf w 31 28 = 3 ∨ bitsOf w 31 28 = 4) ∧ w.getLsbD 27 = true) ∨
    (bitsOf w 31 28 = 4 ∧ (bitsOf w 23 16 ≠ 0 ∨ bitsOf w 15 0 ≠ 0))) ∧
  decode 0x00000000#32 = .error .illegalCmd ∧
  decode 0xFFFFFFFF#32 = .error .illegalCmd ∧
  (∀ (w : Word) (s s0 : State), decode w = .error .illegalCmd → s.busy = false → HostMoves (.writeReg 0 w) s s0 →
    step s = .next { s0 with cmd := w, status := 0x1#32 }) ∧
  (∀ s s0 : State, decode s.cmd = .error .illegalCmd → s.busy = true → BlockMoves s s0 →
    step s = .next { s0 with status := 0x106#32 })

/-! ## A step -/

/-- When it is the block's turn and the command in flight decodes to `i`, the step is `exec i` (spec/10_state.md R23,
R36, spec/70_reset_and_hazards.md R255; the turn itself is the model's, log entry 5). -/
def Obligations.StepRunsDecodedCommand : Prop :=
  ∀ (s s0 : State) (i : Instr), BlockMoves s s0 → s.busy = true → decode s.cmd = .ok i → step s = exec i s0

/-- The step after `withFetchWord` runs exactly the command of that word, in the state just after its issue (the model's
way to place a command: log entry 6). -/
def Obligations.FetchedWordRuns : Prop :=
  ∀ (s : State) (w : Nat) (i : Instr), w < 2 ^ 32 → decodeTableWord 32 w = some i →
    step (s.withFetchWord 32 w) = exec i { s with cmd := BitVec.ofNat 32 w, status := 0x1#32 }

/-- Between a completion and the next issue the block does nothing (spec/20_memory.md R62 (d)). -/
def Obligations.IdleBlockDoesNothing : Prop :=
  ∀ s s0 : State, BlockMoves s s0 → s.busy = false → step s = .next s0

/-- Every command, legal or not, on every state ends in exactly one of the two outcomes of R12: success with a valid
result of the command's kind, or a range violation with a cause in 1..10 and no result (spec/00_scope.md R12,
spec/10_state.md R23). -/
def Obligations.EveryCommandEndsInOneOutcome : Prop :=
  ∀ (i : Instr) (s : State), ∃ t, exec i s = .next t ∧ Status.busy t.status = false ∧ Status.done t.status = true ∧
    ((Status.err t.status = false ∧ Status.cause t.status = 0#4 ∧
        Status.rk t.status = (if scalarCommand i then 1#2 else 2#2)) ∨
      (Status.err t.status = true ∧ Status.rk t.status = 0#2 ∧ 1 ≤ (Status.cause t.status).toNat ∧
        (Status.cause t.status).toNat ≤ 10))

/-- A busy block completes at its next turn, whatever the word in CMD, with no host action, no fault and no refusal
(spec/70_reset_and_hazards.md
R255; that one turn completes it is the model's, log entry 15). -/
def Obligations.BusyBlockCompletesAtItsTurn : Prop :=
  ∀ s s0 : State, BlockMoves s s0 → s.busy = true →
    ∃ t, step s = .next t ∧ Status.done t.status = true ∧ t.busy = false ∧ SameInput s0 t

/-- A WAIT at a busy block ends: after a poll, the block's turn and a second poll the wait is over, DONE = 1 and the
last value the host has read is that STATUS (spec/30_encoding.md R94, spec/70_reset_and_hazards.md R255; the
interleaving is the model's, log entry 12). -/
def Obligations.WaitEndsWithDone : Prop :=
  ∀ (s : State) (rest : List Event), s.inputs = .wait :: rest → s.busy = true → Status.done s.status = false →
    ∃ t : State, Host.Core.run Sys2Proof.core 3 s = .next t ∧ t.inputs = rest ∧ Status.done t.status = true ∧
      t.replies = .word t.status :: .word s.status :: s.replies

/-! ## Reset -/

/-- The values after reset; the items R40 leaves unspecified are invalid, so that no host read has a specified value for
them; a command is accepted at once (spec/10_state.md R40). -/
def Obligations.ResetLeavesTheseValues : Prop :=
  ∀ cfg : Config,
    (State.resetWith cfg).cmd = 0#32 ∧ (State.resetWith cfg).status = 0#32 ∧
    Status.busy (State.resetWith cfg).status = false ∧ Status.done (State.resetWith cfg).status = false ∧
    Status.err (State.resetWith cfg).status = false ∧ Status.rk (State.resetWith cfg).status = 0#2 ∧
    Status.cause (State.resetWith cfg).status = 0#4 ∧ (State.resetWith cfg).len = 0#32 ∧
    (∀ i, Memory.read (State.resetWith cfg).buf i = 0#8) ∧
    (State.resetWith cfg).regValue? 3 = none ∧ (State.resetWith cfg).regValue? 4 = none ∧
    (State.resetWith cfg).regValue? 5 = none ∧ (∀ j, (State.resetWith cfg).outValue? j = none) ∧
    (∀ w, ∃ t, hostAct (.writeReg 0 w) (State.resetWith cfg) = .next t ∧ t.cmd = w ∧ t.status = 0x1#32)

/-- Reset from any state, a command in flight or not, gives the state of R40 and abandons the command; it is the only
way a command ends without completing (spec/70_reset_and_hazards.md R243). -/
def Obligations.ResetAbandonsTheCommand : Prop :=
  (∀ s s0 : State, HostMoves .reset s s0 → ∃ t, step s = .next t ∧ t.cmd = 0#32 ∧ t.status = 0#32 ∧ t.len = 0#32 ∧
    (∀ i, Memory.read t.buf i = 0#8) ∧ t.regValue? 3 = none ∧ t.regValue? 4 = none ∧ t.regValue? 5 = none ∧
    (∀ j, t.outValue? j = none) ∧ t.busy = false) ∧
  (∀ s t : State, s.busy = true → step s = .next t → t.busy = false → Status.done t.status = false →
    ∃ s0, HostMoves .reset s s0)

/-! ## Invariants of every step -/

/-- The invariant holds after reset, whatever legal capacities the block has, and with the suggested ones of State.reset
(spec/10_state.md R40; the suggested capacities are the model's, log entry 1). -/
def Obligations.InvariantHoldsAfterReset : Prop :=
  (∀ cfg : Config, cfg.Wf → (State.resetWith cfg).Inv) ∧ State.reset.Inv

/-- Every step keeps the invariant: legal capacities, canonical byte spaces inside them, a reachable STATUS whose RK
agrees with CMD, and every byte below OUT_LEN specified while RK = 2 (spec/10_state.md R23, R24, R29, R30, R39, R43). -/
def Obligations.EveryStepKeepsTheInvariant : Prop :=
  ∀ s t : State, s.Inv → step s = .next t → t.Inv

/-- No step changes the capacities: they are parameters of the block, which the model holds beside its state
(spec/00_scope.md R7; log entry 1). -/
def Obligations.CapacitiesNeverChange : Prop :=
  ∀ s t : State, step s = .next t → t.cfg = s.cfg

/-- The rules of R24 hold after reset and every step keeps them (spec/10_state.md R24, which the spec marks as derived
from its other rules). -/
def Obligations.StatusFieldsObeyTheirRules : Prop :=
  (∀ cfg : Config, Status.Rules (State.resetWith cfg).status) ∧
  (∀ s t : State, Status.Rules s.status → step s = .next t → Status.Rules t.status)

/-- STATUS changes only when the host issues a command to an idle block, when the block completes one, and at Reset; at
issue it becomes BUSY alone; at completion it becomes the success value of the command's kind or an error value; so
STATUS stays among the values R23 lists (spec/10_state.md R23). -/
def Obligations.StatusChangesOnlyAtIssueAndCompletion : Prop :=
  (∀ s t : State, step s = .next t → t.status ≠ s.status →
    (∃ w s0, HostMoves (.writeReg 0 w) s s0 ∧ s.busy = false ∧ t.cmd = w ∧ t.status = 0x1#32) ∨
    (∃ s0, BlockMoves s s0 ∧ s.busy = true ∧
      ((t.status = 0x12#32 ∧ s.cmdIs true = true) ∨ (t.status = 0x22#32 ∧ s.cmdIs false = true) ∨
        ∃ c : Cause, t.status = 0x6#32 + 256#32 * c.code.setWidth 32)) ∨
    (∃ s0, HostMoves .reset s s0 ∧ t.status = 0#32)) ∧
  (∀ (s s0 : State) (w : Word), HostMoves (.writeReg 0 w) s s0 → s.busy = false →
    step s = .next { s0 with cmd := w, status := 0x1#32 }) ∧
  (∀ (s s0 : State) (i : Instr), BlockMoves s s0 → s.busy = true → decode s.cmd = .ok i →
    ∃ t, step s = .next t ∧ (t.status = (if scalarCommand i then 0x12#32 else 0x22#32) ∨
      ∃ c : Cause, t.status = 0x6#32 + 256#32 * c.code.setWidth 32)) ∧
  State.reset.status ∈ Status.reachable ∧
  (∀ s t : State, s.status ∈ Status.reachable → step s = .next t → t.status ∈ Status.reachable)

/-- The three control states and the transitions between them: a block that is not busy becomes busy only by a host
write to CMD; a busy block becomes idle only by its own completion, which sets DONE, or by Reset; DONE falls only at an
issue or at Reset (spec/10_state.md R42). -/
def Obligations.ControlStateTransitions : Prop :=
  ∀ s t : State, s.status ∈ Status.reachable → step s = .next t →
    (s.busy = false → t.busy = true → ∃ w s0, HostMoves (.writeReg 0 w) s s0) ∧
    (s.busy = true → t.busy = false →
      ((∃ s0, BlockMoves s s0) ∧ Status.done t.status = true) ∨
      ((∃ s0, HostMoves .reset s s0) ∧ Status.done t.status = false)) ∧
    (Status.done s.status = true → Status.done t.status = false →
      (t.busy = true ∧ ∃ w s0, HostMoves (.writeReg 0 w) s s0) ∨ ∃ s0, HostMoves .reset s s0) ∧
    (Status.done s.status = false → Status.done t.status = true → s.busy = true ∧ ∃ s0, BlockMoves s s0)

/-! ## Effects and frames of the commands -/

/-- The effect table: at completion every command writes STATUS, on success RESULT (the scalar commands) or OUT and
OUT_LEN (the sequence commands), on a range violation nothing else; CMD, LEN and every byte of BUF are as before
(spec/10_state.md R37, R38). -/
def Obligations.EffectsOfEveryCommand : Prop :=
  ∀ (i : Instr) (s t : State), exec i s = .next t →
    SameInput s t ∧
    (Status.err t.status = true → ErrorFrame s t) ∧
    (scalarCommand i = true → SameOut s t) ∧
    (scalarCommand i = false → t.result = s.result)

/-- The same command on the same BUF and LEN gives the same outcome, whatever CMD, STATUS and the earlier results are,
and BUF and LEN after it equal BUF and LEN before it (spec/10_state.md R38). -/
def Obligations.SameCommandSameOutcome : Prop :=
  (∀ (i : Instr) (s t : State), exec i s = .next t → t.buf = s.buf ∧ t.len = s.len) ∧
  (∀ (i : Instr) (s u t v : State), u.cfg = s.cfg → u.len = s.len → u.buf = s.buf →
    exec i s = .next t → exec i u = .next v →
    v.status = t.status ∧ (Status.rk t.status = 1#2 → v.result = t.result) ∧
    (Status.rk t.status = 2#2 → v.out = t.out ∧ v.outLen = t.outLen))

/-- What a command does depends on nothing of BUF but BUF[0..LEN-1]: two states that agree on LEN, the capacities and
those bytes get the same STATUS and the same valid result (spec/10_state.md R29; spec/20_memory.md R57;
spec/41_bit_reader.md R142 (g); spec/42_bit_unpacker.md R167 (f)). -/
def Obligations.BytesFromLenOnAreNeverRead : Prop :=
  ∀ (i : Instr) (s u t v : State), u.cfg = s.cfg → u.len = s.len →
    (∀ a, a < s.len.toNat → Memory.read u.buf a = Memory.read s.buf a) →
    exec i s = .next t → exec i u = .next v →
    v.status = t.status ∧ (Status.rk t.status = 1#2 → v.result = t.result) ∧
    (Status.rk t.status = 2#2 → v.out = t.out ∧ v.outLen = t.outLen)

/-- Error entry: a command that finds a violation completes with BUSY = 0, DONE = 1, ERR = 1, RK = 0 and a cause, and
changes nothing else: CMD, LEN, every byte of BUF, RESULT, OUT and OUT_LEN keep their contents (spec/60_exceptions.md
R210). -/
def Obligations.ErrorEntryChangesOnlyStatus : Prop :=
  ∀ (i : Instr) (s t : State), exec i s = .next t → Status.err t.status = true →
    Status.busy t.status = false ∧ Status.done t.status = true ∧ Status.rk t.status = 0#2 ∧
    Status.cause t.status ≠ 0#4 ∧ ErrorFrame s t

/-- Which command can raise which cause: no other cause than the table's, and each of the table's on some state; an
illegal word raises ILLEGAL_CMD and no other cause (spec/60_exceptions.md R202, which the spec marks as derived from its
other rules). -/
def Obligations.CausesOfEachCommand : Prop :=
  (∀ (i : Instr) (s t : State), exec i s = .next t → Status.err t.status = true →
    ∃ c, c ∈ possibleCauses i ∧ Status.cause t.status = c.code) ∧
  (∀ c, c ∈ [Cause.lenDomain, .offDomain, .byteOverflow] → ∃ b o n s t, s.Inv ∧
    exec (.xbyte b o n) s = .next t ∧ Status.err t.status = true ∧ Status.cause t.status = c.code) ∧
  (∀ c, c ∈ [Cause.offDomain] → ∃ b o s t, s.Inv ∧
    exec (.xbyteD b o) s = .next t ∧ Status.err t.status = true ∧ Status.cause t.status = c.code) ∧
  (∀ c, c ∈ [Cause.lenDomain, .pastEnd, .offNeg, .bufCap] → ∃ off n s t, s.Inv ∧
    exec (.rdbits off n) s = .next t ∧ Status.err t.status = true ∧ Status.cause t.status = c.code) ∧
  (∀ c, c ∈ [Cause.lenDomain, .bufCap] → ∃ off n s t, s.Inv ∧
    exec (.rdbitsL off n) s = .next t ∧ Status.err t.status = true ∧ Status.cause t.status = c.code) ∧
  (∀ c, c ∈ [Cause.bitsDomain, .outRange, .bufCap] → ∃ bits off s t, s.Inv ∧
    exec (.unpack bits off) s = .next t ∧ Status.err t.status = true ∧ Status.cause t.status = c.code) ∧
  (∀ c, c ∈ [Cause.badIdLen, .bufCap] → ∃ s t, s.Inv ∧
    exec .crock s = .next t ∧ Status.err t.status = true ∧ Status.cause t.status = c.code) ∧
  (∀ s s0 t : State, decode s.cmd = .error .illegalCmd → s.busy = true → BlockMoves s s0 → step s = .next t →
    Status.err t.status = true ∧ Status.cause t.status = 1#4)

/-- A LEN above NBYTES_MAX is stored as any other value and every command but XBYTE and XBYTE.D then ends with BUF_CAP,
before any other check (spec/10_state.md R28; spec/60_exceptions.md R205). -/
def Obligations.LenAboveCapacity : Prop :=
  ∀ s : State, s.cfg.nbytesMax < s.len.toNat →
    (∀ off n, exec (.rdbits off n) s = .next { s with status := 0xA06#32 }) ∧
    (∀ off n, exec (.rdbitsL off n) s = .next { s with status := 0xA06#32 }) ∧
    (∀ bits off, exec (.unpack bits off) s = .next { s with status := 0xA06#32 }) ∧
    exec .crock s = .next { s with status := 0xA06#32 } ∧
    (∀ b o n t, exec (.xbyte b o n) s = .next t → t.status ≠ 0xA06#32) ∧
    (∀ b o t, exec (.xbyteD b o) s = .next t → t.status ≠ 0xA06#32)

/-! ## The single-byte extractor -/

/-- XBYTE: the three checks in their order, else RESULT is the bit span and RK = 1; BUF, LEN, OUT and OUT_LEN are not
touched and LEN is not looked at (spec/40_byte_extractor.md R112). -/
def Obligations.XbyteFollowsItsRule : Prop :=
  ∀ (b : Byte) (o n : Int) (s : State),
    (o < 0 ∨ o > 7 → exec (.xbyte b o n) s = .next { s with status := 0x306#32 }) ∧
    (0 ≤ o → o ≤ 7 → n < 0 → exec (.xbyte b o n) s = .next { s with status := 0x206#32 }) ∧
    (0 ≤ o → o ≤ 7 → 0 ≤ n → o + n > 8 → exec (.xbyte b o n) s = .next { s with status := 0x406#32 }) ∧
    (0 ≤ o → o ≤ 7 → 0 ≤ n → o + n ≤ 8 → ∃ t, exec (.xbyte b o n) s = .next t ∧
      t.result.toNat = (b.toNat >>> (8 - o - n).toNat) &&& (2 ^ n.toNat - 1) ∧
      t.status = 0x12#32 ∧ ScalarFrame s t) ∧
    encode (.xbyte b o n) = 0x10#8 ++ b ++ BitVec.ofInt 8 n ++ BitVec.ofInt 8 o

/-- XBYTE.D: the offset check, else RESULT is the byte's bits from the offset to its end; the same outcome as XBYTE with
length 8 - offset, for every offset (spec/40_byte_extractor.md R114). -/
def Obligations.XbyteDFollowsItsRule : Prop :=
  ∀ (b : Byte) (o : Int) (s : State),
    (o < 0 ∨ o > 7 → exec (.xbyteD b o) s = .next { s with status := 0x306#32 }) ∧
    (0 ≤ o → o ≤ 7 → ∃ t, exec (.xbyteD b o) s = .next t ∧
      t.result.toNat = b.toNat &&& (2 ^ (8 - o).toNat - 1) ∧ t.status = 0x12#32 ∧ ScalarFrame s t) ∧
    exec (.xbyteD b o) s = exec (.xbyte b o (8 - o)) s ∧
    encode (.xbyteD b o) = 0x14#8 ++ b ++ 0#8 ++ BitVec.ofInt 8 o

/-- The bit span is the sum of its weighted bits, first bit most significant, below 2^n; no bits give 0 and all eight
the byte (spec/40_byte_extractor.md R111, which the spec marks as derived from its other rules). -/
def Obligations.XbyteIsTheSumOfItsBits : Prop :=
  ∀ (b : Byte) (o n : Nat), o ≤ 7 → o + n ≤ 8 →
    xbyte b o n = ((List.range n).map fun k => ((b.toNat >>> (7 - o - k)) &&& 1) * 2 ^ (n - 1 - k)).sum ∧
    xbyte b o n ≤ 2 ^ n - 1 ∧ (n = 0 → xbyte b o n = 0) ∧ (o = 0 → n = 8 → xbyte b o n = b.toNat)

/-- The laws of the bit span: bounds, splitting, reassembly of the byte, the all-zero and the all-one byte
(spec/40_byte_extractor.md R115, which the spec marks as derived from its other rules). -/
def Obligations.XbyteLaws : Prop :=
  (∀ (b : Byte) (o n : Nat), o ≤ 7 → o + n ≤ 8 → xbyte b o n ≤ 2 ^ n - 1 ∧ 2 ^ n - 1 ≤ 255) ∧
  (∀ (b : Byte) (o n1 n2 : Nat), o ≤ 7 → o + n1 + n2 ≤ 8 →
    (o + n1 ≤ 7 → xbyte b o (n1 + n2 : Nat) = xbyte b o n1 * 2 ^ n2 + xbyte b (o + n1 : Nat) n2) ∧
    (n2 = 0 → xbyte b o (n1 + n2 : Nat) = xbyte b o n1)) ∧
  (∀ (b : Byte) (o : Nat), o ≤ 7 → b.toNat = xbyte b 0 o * 2 ^ (8 - o) + xbyte b o (8 - o : Nat)) ∧
  (∀ o n : Nat, o ≤ 7 → o + n ≤ 8 → xbyte 0#8 o n = 0 ∧ xbyte 255#8 o n = 2 ^ n - 1)

/-- XBYTE on a byte and RDBITS on the buffer that holds just that byte: the same result inside the extractor's domain,
and outside it the errors R117 pairs (with RDBITS checking its length first, as R131 orders); both fail or both succeed
but for offset 8, length 0 (spec/40_byte_extractor.md R117, which the spec marks as derived from its other rules). -/
def Obligations.XbyteAgreesWithTheReader : Prop :=
  ∀ (b : Byte) (o n : Int) (s : State), s.cfg.Wf → s.len = 1#32 → Memory.read s.buf 0 = b →
    (0 ≤ o → o ≤ 7 → 0 ≤ n → o + n ≤ 8 → exec (.xbyte b o n) s = exec (.rdbits o n) s) ∧
    (0 ≤ o → o ≤ 7 → 0 ≤ n → n ≤ 53 → o + n > 8 →
      exec (.xbyte b o n) s = .next { s with status := 0x406#32 } ∧
      exec (.rdbits o n) s = .next { s with status := 0x506#32 }) ∧
    (8 ≤ o → 0 ≤ n → n ≤ 53 → (1 ≤ n ∨ 8 < o) →
      exec (.xbyte b o n) s = .next { s with status := 0x306#32 } ∧
      exec (.rdbits o n) s = .next { s with status := 0x506#32 }) ∧
    (o = 8 → n = 0 → exec (.xbyte b o n) s = .next { s with status := 0x306#32 } ∧
      ∃ t, exec (.rdbits o n) s = .next t ∧ t.status = 0x12#32 ∧ t.result = 0#53) ∧
    (o < 0 → exec (.xbyte b o n) s = .next { s with status := 0x306#32 } ∧
      (0 ≤ n → n ≤ 53 → exec (.rdbits o n) s = .next { s with status := 0x606#32 }) ∧
      (n < 0 ∨ n > 53 → exec (.rdbits o n) s = .next { s with status := 0x206#32 })) ∧
    (0 ≤ o → o ≤ 7 → n < 0 → exec (.xbyte b o n) s = .next { s with status := 0x206#32 } ∧
      exec (.rdbits o n) s = .next { s with status := 0x206#32 }) ∧
    (0 ≤ o → o ≤ 7 → n > 53 → exec (.xbyte b o n) s = .next { s with status := 0x406#32 } ∧
      exec (.rdbits o n) s = .next { s with status := 0x206#32 }) ∧
    (∀ t u, exec (.xbyte b o n) s = .next t → exec (.rdbits o n) s = .next u → ¬(o = 8 ∧ n = 0) →
      Status.err t.status = Status.err u.status)

/-! ## The bit reader -/

/-- RDBITS: the four checks in their order, else RESULT is the strict read and RK = 1; BUF, LEN, OUT and OUT_LEN are not
touched (spec/41_bit_reader.md R131). -/
def Obligations.RdbitsFollowsItsRule : Prop :=
  ∀ (off n : Int) (s : State),
    (s.cfg.nbytesMax < s.len.toNat → exec (.rdbits off n) s = .next { s with status := 0xA06#32 }) ∧
    (s.len.toNat ≤ s.cfg.nbytesMax → n < 0 ∨ n > 53 →
      exec (.rdbits off n) s = .next { s with status := 0x206#32 }) ∧
    (s.len.toNat ≤ s.cfg.nbytesMax → 0 ≤ n → n ≤ 53 → off < 0 →
      exec (.rdbits off n) s = .next { s with status := 0x606#32 }) ∧
    (s.len.toNat ≤ s.cfg.nbytesMax → 0 ≤ n → n ≤ 53 → 0 ≤ off → off + n > 8 * (s.len.toNat : Int) →
      exec (.rdbits off n) s = .next { s with status := 0x506#32 }) ∧
    (s.len.toNat ≤ s.cfg.nbytesMax → 0 ≤ n → n ≤ 53 → 0 ≤ off → off + n ≤ 8 * (s.len.toNat : Int) →
      ∃ t, exec (.rdbits off n) s = .next t ∧ t.result.toNat = readBits (memRead s) off n.toNat ∧
        t.status = 0x12#32 ∧ ScalarFrame s t) ∧
    encode (.rdbits off n) = 0x20#8 ++ BitVec.ofInt 8 n ++ BitVec.ofInt 16 off

/-- RDBITS.L: the two checks in their order, else RESULT is the loose read, zeros outside the buffer, and RK = 1; BUF,
LEN, OUT and OUT_LEN are not touched (spec/41_bit_reader.md R132). -/
def Obligations.RdbitsLFollowsItsRule : Prop :=
  ∀ (off n : Int) (s : State),
    (s.cfg.nbytesMax < s.len.toNat → exec (.rdbitsL off n) s = .next { s with status := 0xA06#32 }) ∧
    (s.len.toNat ≤ s.cfg.nbytesMax → n < 0 ∨ n > 53 →
      exec (.rdbitsL off n) s = .next { s with status := 0x206#32 }) ∧
    (s.len.toNat ≤ s.cfg.nbytesMax → 0 ≤ n → n ≤ 53 →
      ∃ t, exec (.rdbitsL off n) s = .next t ∧ t.result.toNat = readBits (memReadLoose s) off n.toNat ∧
        t.status = 0x12#32 ∧ ScalarFrame s t) ∧
    encode (.rdbitsL off n) = 0x28#8 ++ BitVec.ofInt 8 n ++ BitVec.ofInt 16 off

/-- A strict read that passes its checks touches only bytes inside the input sequence (spec/20_memory.md R54;
spec/41_bit_reader.md R135). -/
def Obligations.StrictReadStaysInside : Prop :=
  ∀ (off n : Int) (s t : State), exec (.rdbits off n) s = .next t → Status.err t.status = false →
    ∀ k : Nat, k < n.toNat →
      0 ≤ (off + k) / 8 ∧ (off + k) / 8 < (s.len.toNat : Int) ∧ (s.len.toNat : Int) ≤ s.cfg.nbytesMax

/-- When the two reads agree: a strict success is a loose success with the same next state; where the strict read raises
OFF_NEG or PAST_END the loose one succeeds with the buffer's bits in place and 0 elsewhere; BUF_CAP and LEN_DOMAIN are
raised together (spec/41_bit_reader.md R136, which the spec marks as derived from its other rules). -/
def Obligations.StrictAndLooseReadsAgree : Prop :=
  ∀ (off n : Int) (s : State),
    (∀ t, exec (.rdbits off n) s = .next t → Status.err t.status = false → exec (.rdbitsL off n) s = .next t) ∧
    (∀ t, exec (.rdbits off n) s = .next t → t.status = 0x606#32 ∨ t.status = 0x506#32 →
      ∃ u, exec (.rdbitsL off n) s = .next u ∧ u.status = 0x12#32 ∧ u.result.toNat < 2 ^ n.toNat ∧
        ∀ k : Nat, k < n.toNat → (u.result.getLsbD (n.toNat - 1 - k)).toNat =
          if 0 ≤ off + k ∧ off + k < 8 * (s.len.toNat : Int) then bitAt (memRead s) (off + k) else 0) ∧
    (∀ w : Word, w = 0xA06#32 ∨ w = 0x206#32 →
      (exec (.rdbits off n) s = .next { s with status := w } ↔ exec (.rdbitsL off n) s = .next { s with status := w }))

/-- The byte-wise algorithm computes the bit-level definition, for every byte-read function, offset and length
(spec/41_bit_reader.md R138, which the spec marks as derived from its other rules). -/
def Obligations.AlgorithmComputesTheDefinition : Prop :=
  ∀ (rd : Int → Byte) (off : Int) (n : Nat), n ≤ 53 → readBitsAlg rd off n = readBits rd off n

/-- The range of a reader's result: at most 2^n - 1, and 2^53 - 1 for 53 bits that are all 1 (spec/41_bit_reader.md
R141, which the spec marks as derived from its other rules). -/
def Obligations.ResultFitsItsRegister : Prop :=
  (∀ (off n : Int) (s t : State), exec (.rdbits off n) s = .next t → Status.err t.status = false →
    t.result.toNat ≤ 2 ^ n.toNat - 1 ∧
    (n = 53 → (∀ k : Nat, k < 53 → bitAt (memRead s) (off + k) = 1) → t.result.toNat = 9007199254740991)) ∧
  (∀ (off n : Int) (s t : State), exec (.rdbitsL off n) s = .next t → Status.err t.status = false →
    t.result.toNat ≤ 2 ^ n.toNat - 1 ∧
    (n = 53 → (∀ k : Nat, k < 53 → bitAt (memReadLoose s) (off + k) = 1) → t.result.toNat = 9007199254740991)) ∧
  (∀ (rd : Int → Byte) (off : Int) (n : Nat), n ≤ 53 → readBits rd off n ≤ 9007199254740991)

/-- The laws of the reader: concatenation, single bit, whole aligned bytes, leading zeros, trailing zeros, reads
entirely outside, and dependence on the covered bytes alone (spec/41_bit_reader.md R142, which the spec marks as derived
from its other rules). -/
def Obligations.ReaderLaws : Prop :=
  (∀ (rd : Int → Byte) (off : Int) (n1 n2 : Nat),
    readBits rd off (n1 + n2) = readBits rd off n1 * 2 ^ n2 + readBits rd (off + n1) n2) ∧
  (∀ (rd : Int → Byte) (off : Int), readBits rd off 1 = bitAt rd off) ∧
  (∀ (rd : Int → Byte) (a : Int) (m : Nat), readBits rd (8 * a) (8 * m) = bigEndian rd a m) ∧
  (∀ (s : State) (off : Int) (n : Nat), off < 0 → -off ≤ n →
    readBits (memReadLoose s) off n = readBits (memReadLoose s) 0 (n + off).toNat) ∧
  (∀ (s : State) (off : Int) (n : Nat), 0 ≤ off → off ≤ 8 * (s.len.toNat : Int) → 8 * (s.len.toNat : Int) ≤ off + n →
    readBits (memReadLoose s) off n =
      readBits (memReadLoose s) off (8 * (s.len.toNat : Int) - off).toNat *
        2 ^ (off + n - 8 * (s.len.toNat : Int)).toNat) ∧
  (∀ (s : State) (off : Int) (n : Nat), off + n ≤ 0 ∨ 8 * (s.len.toNat : Int) ≤ off →
    readBits (memReadLoose s) off n = 0) ∧
  (∀ (s u : State) (off : Int) (n : Nat), u.len = s.len →
    (∀ i : Nat, off / 8 ≤ (i : Int) → (i : Int) ≤ (off + n - 1) / 8 → i < s.len.toNat →
      Memory.read u.buf i = Memory.read s.buf i) →
    readBits (memReadLoose u) off n = readBits (memReadLoose s) off n)

/-- A read of 0 bits returns 0 whenever the checks pass, which for the strict read is 0 ≤ offset ≤ 8·LEN, the position
just past the last byte included (spec/41_bit_reader.md R143). -/
def Obligations.ZeroBitReadsReturnZero : Prop :=
  ∀ (off : Int) (s : State), s.len.toNat ≤ s.cfg.nbytesMax →
    (0 ≤ off → off ≤ 8 * (s.len.toNat : Int) →
      ∃ t, exec (.rdbits off 0) s = .next t ∧ t.result = 0#53 ∧ t.status = 0x12#32 ∧ ScalarFrame s t) ∧
    (off < 0 ∨ off > 8 * (s.len.toNat : Int) →
      ∃ t, exec (.rdbits off 0) s = .next t ∧ Status.err t.status = true) ∧
    (∃ t, exec (.rdbitsL off 0) s = .next t ∧ t.result = 0#53 ∧ t.status = 0x12#32 ∧ ScalarFrame s t)

/-- A strict read at a negative offset raises OFF_NEG whatever the offset is, multiples of 8 and reads that end inside
the buffer included; BUF_CAP, checked first (R205), does not apply (spec/41_bit_reader.md R144). -/
def Obligations.StrictReadBeforeTheStartFails : Prop :=
  ∀ (off n : Int) (s : State), s.len.toNat ≤ s.cfg.nbytesMax → off < 0 → 0 ≤ n → n ≤ 53 →
    ∃ t, exec (.rdbits off n) s = .next t ∧ Status.err t.status = true ∧ Status.cause t.status = 6#4 ∧ ErrorFrame s t

/-! ## The bit unpacker -/

/-- UNPACK: the three checks in their order, else OUT[i] is the i-th group for i below N, no byte of OUT from N on has a
specified value (R30), OUT_LEN is N and RK = 2; BUF, LEN and RESULT are not touched (spec/42_bit_unpacker.md R161). -/
def Obligations.UnpackFollowsItsRule : Prop :=
  ∀ (bits off : Int) (s : State),
    (s.cfg.nbytesMax < s.len.toNat → exec (.unpack bits off) s = .next { s with status := 0xA06#32 }) ∧
    (s.len.toNat ≤ s.cfg.nbytesMax → bits < 1 ∨ bits > 8 →
      exec (.unpack bits off) s = .next { s with status := 0x706#32 }) ∧
    (s.len.toNat ≤ s.cfg.nbytesMax → 1 ≤ bits → bits ≤ 8 →
      ceilDiv (8 * (s.len.toNat : Int) - off) bits < 0 ∨
        ceilDiv (8 * (s.len.toNat : Int) - off) bits > (s.cfg.noutMax : Int) →
      exec (.unpack bits off) s = .next { s with status := 0x806#32 }) ∧
    (∀ N : Nat, s.cfg.Wf → s.len.toNat ≤ s.cfg.nbytesMax → 1 ≤ bits → bits ≤ 8 →
      ceilDiv (8 * (s.len.toNat : Int) - off) bits = N → N ≤ s.cfg.noutMax →
      ∃ t, exec (.unpack bits off) s = .next t ∧ t.outLen.toNat = N ∧
        (∀ i, i < N → ∃ v, t.outValue? i = some v ∧
          v.toNat = readBits (memReadLoose s) (off + i * bits) bits.toNat) ∧
        (∀ j, N ≤ j → t.outValue? j = none) ∧
        t.status = 0x22#32 ∧ SequenceFrame s t) ∧
    encode (.unpack bits off) = 0x30#8 ++ BitVec.ofInt 8 bits ++ BitVec.ofInt 16 off

/-- The output length, which a success leaves in OUT_LEN, is the least number of groups that covers the stream from the
offset to the end of the input, and it is negative iff the offset is at or beyond 8·LEN + bits (spec/42_bit_unpacker.md
R162). -/
def Obligations.OutputLengthOfUnpack : Prop :=
  ∀ (s : State) (bits off : Int), 1 ≤ bits → bits ≤ 8 →
    8 * (s.len.toNat : Int) - off ≤ groupCount s bits off * bits ∧
    (∀ q : Int, 8 * (s.len.toNat : Int) - off ≤ q * bits → groupCount s bits off ≤ q) ∧
    (groupCount s bits off < 0 ↔ off ≥ 8 * (s.len.toNat : Int) + bits) ∧
    (∀ t, s.cfg.Wf → exec (.unpack bits off) s = .next t → Status.err t.status = false →
      (t.outLen.toNat : Int) = groupCount s bits off)

/-- Padding: bits of a group before the start of the buffer are 0, groups wholly before it are 0, and the last group's
low `pad` bits are 0, pad being below the width and 0 exactly when the width divides 8·LEN - offset
(spec/42_bit_unpacker.md R166, which the spec marks as derived from its other rules). -/
def Obligations.PaddingOfUnpack : Prop :=
  ∀ (s : State) (bits : Nat) (off : Int), 1 ≤ bits → bits ≤ 8 →
    (∀ i k : Nat, k < bits → off + i * bits + k < 0 → (group s bits off i >>> (bits - 1 - k)) &&& 1 = 0) ∧
    (∀ i : Nat, ((i : Int) + 1) * bits ≤ -off → group s bits off i = 0) ∧
    (∀ N pad : Nat, groupCount s bits off = N → 1 ≤ N → (pad : Int) = off + N * bits - 8 * (s.len.toNat : Int) →
      group s bits off (N - 1) % 2 ^ pad = 0) ∧
    (1 ≤ groupCount s bits off → 0 ≤ off + groupCount s bits off * bits - 8 * (s.len.toNat : Int) ∧
      off + groupCount s bits off * bits - 8 * (s.len.toNat : Int) ≤ (bits : Int) - 1) ∧
    (off + groupCount s bits off * bits - 8 * (s.len.toNat : Int) = 0 ↔
      (bits : Int) ∣ 8 * (s.len.toNat : Int) - off)

/-- Laws of the unpacker: the range of a group, reassembly of the stream, the identity at width 8, whole padding bytes,
and single bits (spec/42_bit_unpacker.md R167 (a) to (e), which the spec marks as derived from its other rules). -/
def Obligations.UnpackerLaws : Prop :=
  (∀ (s : State) (bits : Nat) (off : Int) (i : Nat), group s bits off i ≤ 2 ^ bits - 1) ∧
  (∀ (s : State) (bits : Nat) (off : Int) (m : Nat), readBits (memReadLoose s) off (m * bits) =
    ((List.range m).map fun i => group s bits off i * 2 ^ (bits * (m - 1 - i))).sum) ∧
  (∀ s : State, groupCount s 8 0 = s.len.toNat ∧
    ∀ i, i < s.len.toNat → group s 8 0 i = (Memory.read s.buf i).toNat) ∧
  (∀ (s : State) (m : Nat), groupCount s 8 (-8 * m) = m + s.len.toNat ∧
    (∀ i, i < m → group s 8 (-8 * m) i = 0) ∧
    (∀ i, i < s.len.toNat → group s 8 (-8 * m) (m + i) = (Memory.read s.buf i).toNat)) ∧
  (∀ s : State, groupCount s 1 0 = 8 * (s.len.toNat : Int) ∧
    ∀ i : Nat, group s 1 0 i = bitAt (memReadLoose s) i)

/-- Order preservation: for one length, width and offset at or before 0, inputs that compare a < b by bytes have group
sequences that compare the same way, and equal inputs have equal ones (spec/42_bit_unpacker.md R167 (g), which the spec
marks as derived from its other rules). -/
def Obligations.UnpackPreservesOrder : Prop :=
  ∀ (s u : State) (bits : Nat) (off : Int) (N : Nat), 1 ≤ bits → bits ≤ 8 → off ≤ 0 → u.len = s.len →
    groupCount s bits off = N →
    (s.inputBytes < u.inputBytes →
      ((List.range N).map fun i => group s bits off i) < ((List.range N).map fun i => group u bits off i)) ∧
    (s.inputBytes = u.inputBytes →
      ((List.range N).map fun i => group s bits off i) = ((List.range N).map fun i => group u bits off i))

/-! ## The Crockford encoder -/

/-- CROCK: the two checks in their order, else OUT[0..33] are the characters of the 34 groups, OUT_LEN is 34 and RK = 2;
BUF, LEN and RESULT are not touched (spec/43_crockford_encoder.md R180). -/
def Obligations.CrockFollowsItsRule : Prop :=
  ∀ s : State,
    (s.cfg.nbytesMax < s.len.toNat → exec .crock s = .next { s with status := 0xA06#32 }) ∧
    (s.len.toNat ≤ s.cfg.nbytesMax → s.len.toNat ≠ 21 → exec .crock s = .next { s with status := 0x906#32 }) ∧
    (s.len.toNat ≤ s.cfg.nbytesMax → s.len.toNat = 21 →
      ∃ t, exec .crock s = .next t ∧ t.outLen = 34#32 ∧
        (∀ i : Nat, i < 34 →
          t.outValue? i = some (alpha (readBits (memReadLoose s) (-2 + 5 * (i : Int)) 5))) ∧
        (∀ j, 34 ≤ j → t.outValue? j = none) ∧
        t.status = 0x22#32 ∧ SequenceFrame s t) ∧
    encode .crock = 0x40000000#32

/-- The alphabet table as a function, 32 distinct codes, strictly increasing, none of them I, L, O or U
(spec/43_crockford_encoder.md R182; the codes are the spec's from general knowledge, log entry 13). -/
def Obligations.AlphabetTable : Prop :=
  (∀ v, v ≤ 9 → (alpha v).toNat = 0x30 + v) ∧
  (∀ v, 10 ≤ v → v ≤ 17 → (alpha v).toNat = 0x41 + (v - 10)) ∧
  (∀ v, 18 ≤ v → v ≤ 19 → (alpha v).toNat = 0x4A + (v - 18)) ∧
  (∀ v, 20 ≤ v → v ≤ 21 → (alpha v).toNat = 0x4D + (v - 20)) ∧
  (∀ v, 22 ≤ v → v ≤ 26 → (alpha v).toNat = 0x50 + (v - 22)) ∧
  (∀ v, 27 ≤ v → v ≤ 31 → (alpha v).toNat = 0x56 + (v - 27)) ∧
  (∀ v w, v < w → w < 32 → (alpha v).toNat < (alpha w).toNat) ∧
  (∀ v, v < 32 → alpha v ≠ 0x49#8 ∧ alpha v ≠ 0x4C#8 ∧ alpha v ≠ 0x4F#8 ∧ alpha v ≠ 0x55#8)

/-- For LEN = 21, CROCK and UNPACK 5, -2 succeed together, both with OUT_LEN = 34, and each character is the alphabet's
entry for the group UNPACK stores there (spec/43_crockford_encoder.md R185, which the spec marks as derived from its
other rules). -/
def Obligations.CrockIsAlphaOfUnpack : Prop :=
  ∀ s : State, s.cfg.Wf → s.len = 21#32 →
    ∃ t u, exec .crock s = .next t ∧ exec (.unpack 5 (-2)) s = .next u ∧
      t.status = 0x22#32 ∧ u.status = 0x22#32 ∧ t.outLen = 34#32 ∧ u.outLen = 34#32 ∧
      ∀ i, i < 34 → ∃ g, u.outValue? i = some g ∧ g.toNat < 32 ∧ t.outValue? i = some (alpha g.toNat)

/-- Closed form: the groups of an identifier are the 34 base-32 digits of its 168-bit big-endian integer
(spec/43_crockford_encoder.md R186, which the spec marks as derived from its other rules). -/
def Obligations.CrockGroupsAreBase32Digits : Prop :=
  ∀ s : State, s.len = 21#32 →
    bigEndian (memRead s) 0 21 < 2 ^ 168 ∧
    ∀ i : Nat, i < 34 → group s 5 (-2) i = (bigEndian (memRead s) 0 21 >>> (5 * (33 - i))) &&& 31

/-- Layout of the text: the first character is 0 to 7; characters 0..9 are the base-32 numeral of the 48-bit timestamp
and characters 10..33 that of the 120 random bits; the last holds the low five bits of byte 20; the all-zero and the
all-ones identifier (spec/43_crockford_encoder.md R187, which the spec marks as derived from its other rules). The
clauses about characters rest on the PRESUMED codes of R182 (log entry 13); the clauses about groups do not. -/
def Obligations.CrockTextLayout : Prop :=
  ∀ s : State, s.cfg.Wf → s.len = 21#32 →
    group s 5 (-2) 0 ≤ 7 ∧
    (∀ i : Nat, i < 10 → group s 5 (-2) i = (bigEndian (memRead s) 0 6 >>> (5 * (9 - i))) &&& 31) ∧
    (∀ i : Nat, 10 ≤ i → i < 34 → group s 5 (-2) i = (bigEndian (memRead s) 6 15 >>> (5 * (33 - i))) &&& 31) ∧
    group s 5 (-2) 33 = (Memory.read s.buf 20).toNat &&& 31 ∧
    (∀ t, exec .crock s = .next t → ∃ c : Byte, t.outValue? 0 = some c ∧ 0x30 ≤ c.toNat ∧ c.toNat ≤ 0x37) ∧
    ((∀ j, j < 21 → Memory.read s.buf j = 0x00#8) → ∀ t, exec .crock s = .next t →
      t.outSequence = List.replicate 34 (some 0x30#8)) ∧
    ((∀ j, j < 21 → Memory.read s.buf j = 0xFF#8) → ∀ t, exec .crock s = .next t →
      t.outSequence = some 0x37#8 :: List.replicate 33 (some 0x5A#8))

/-- Order preservation: two identifiers compare byte-lexicographically as their 168-bit integers, as their groups and as
their texts compare, the texts by character codes; a smaller timestamp gives a smaller text
(spec/43_crockford_encoder.md R189, which the spec marks as derived from its other rules). The clauses about texts rest
on the PRESUMED codes of R182 (log entry 13). -/
def Obligations.CrockPreservesOrder : Prop :=
  ∀ (s u t v : State) (xs ys : List Byte), s.cfg.Wf → u.cfg.Wf → s.len = 21#32 → u.len = 21#32 →
    exec .crock s = .next t → exec .crock u = .next v →
    t.outSequence = xs.map some → v.outSequence = ys.map some →
    (s.inputBytes < u.inputBytes ↔ bigEndian (memRead s) 0 21 < bigEndian (memRead u) 0 21) ∧
    (s.inputBytes < u.inputBytes ↔
      ((List.range 34).map fun i => group s 5 (-2) i) < ((List.range 34).map fun i => group u 5 (-2) i)) ∧
    (s.inputBytes < u.inputBytes ↔ xs.map BitVec.toNat < ys.map BitVec.toNat) ∧
    (bigEndian (memRead s) 0 6 < bigEndian (memRead u) 0 6 → xs.map BitVec.toNat < ys.map BitVec.toNat)

/-- Distinct identifiers have distinct texts (spec/43_crockford_encoder.md R190, which the spec marks as derived from
its other rules). It rests on the PRESUMED codes of R182 (log entry 13). -/
def Obligations.CrockIsInjective : Prop :=
  ∀ s u t v : State, s.cfg.Wf → u.cfg.Wf → s.len = 21#32 → u.len = 21#32 →
    exec .crock s = .next t → exec .crock u = .next v → t.outSequence = v.outSequence →
    s.inputBytes = u.inputBytes

/-! ## The host's side -/

/-- Host accesses to an idle block: a write to CMD stores the word and issues, a write to LEN or BUF[i] changes only
that location, a write to a read-only location changes nothing, and no read changes the block (spec/20_memory.md R68).
-/
def Obligations.EffectsOfHostAccesses : Prop :=
  ∀ s s0 : State, s.Inv → s.busy = false →
    (∀ w, HostMoves (.writeReg 0 w) s s0 → step s = .next { s0 with cmd := w, status := 0x1#32 }) ∧
    (∀ v, HostMoves (.writeReg 2 v) s s0 → step s = .next { s0 with len := v }) ∧
    (∀ k v, k ∈ [1, 3, 4, 5] → HostMoves (.writeReg k v) s s0 → step s = .next s0) ∧
    (∀ i v, i < s.cfg.nbytesMax → HostMoves (.writeBuf i v) s s0 →
      ∃ m, step s = .next { s0 with buf := m } ∧ Memory.read m i = v ∧
        ∀ a, a ≠ i → Memory.read m a = Memory.read s.buf a) ∧
    (∀ j v, j < s.cfg.noutMax → HostMoves (.writeOut j v) s s0 → step s = .next s0) ∧
    (∀ k, k ≤ 5 → HostMoves (.readReg k) s s0 →
      ∃ v d, step s = .next { s0 with replies := .word v :: s.replies, draws := d }) ∧
    (∀ i, i < s.cfg.nbytesMax → HostMoves (.readBuf i) s s0 →
      ∃ v, step s = .next { s0 with replies := .byte v :: s.replies }) ∧
    (∀ j, j < s.cfg.noutMax → HostMoves (.readOut j) s s0 →
      ∃ v d, step s = .next { s0 with replies := .byte v :: s.replies, draws := d })

/-- The values of host reads where they are specified: CMD, STATUS, LEN and BUF always; RESULT_LO and RESULT_HI while RK
= 1, RESULT being RESULT_HI·2^32 + RESULT_LO; OUT_LEN, and OUT[j] below it, while RK = 2 (spec/10_state.md R26, R39;
spec/20_memory.md R58). -/
def Obligations.SpecifiedHostReads : Prop :=
  ∀ s s0 : State, s.Inv → s.busy = false →
    (HostMoves (.readReg 0) s s0 → step s = .next { s0 with replies := .word s.cmd :: s.replies }) ∧
    (HostMoves (.readReg 1) s s0 → step s = .next { s0 with replies := .word s.status :: s.replies }) ∧
    (HostMoves (.readReg 2) s s0 → step s = .next { s0 with replies := .word s.len :: s.replies }) ∧
    (∀ i, i < s.cfg.nbytesMax → HostMoves (.readBuf i) s s0 →
      step s = .next { s0 with replies := .byte (Memory.read s.buf i) :: s.replies }) ∧
    (Status.rk s.status = 1#2 → ∃ lo hi : Word, hi.toNat * 2 ^ 32 + lo.toNat = s.result.toNat ∧
      (HostMoves (.readReg 3) s s0 → step s = .next { s0 with replies := .word lo :: s.replies }) ∧
      (HostMoves (.readReg 4) s s0 → step s = .next { s0 with replies := .word hi :: s.replies })) ∧
    (Status.rk s.status = 2#2 →
      (HostMoves (.readReg 5) s s0 → step s = .next { s0 with replies := .word s.outLen :: s.replies }) ∧
      (∀ j, j < s.outLen.toNat → HostMoves (.readOut j) s s0 → ∃ v, Memory.find? s.out j = some v ∧
        step s = .next { s0 with replies := .byte v :: s.replies }))

/-- A host read where R39 specifies no value returns a free value and does not disturb the block (spec/10_state.md R39;
spec/70_reset_and_hazards.md R251). `Config.freeWord` and `Config.freeByte` are constrained by nothing: the statement
holds for every value, and the counter that makes the next draw a fresh one is the model's (log entry 8). -/
def Obligations.UnspecifiedHostReads : Prop :=
  ∀ s s0 : State, s.busy = false →
    (Status.rk s.status ≠ 1#2 → HostMoves (.readReg 3) s s0 →
      step s = .next { s0 with replies := .word (Config.freeWord s.draws) :: s.replies, draws := s.draws + 1 }) ∧
    (Status.rk s.status ≠ 1#2 → HostMoves (.readReg 4) s s0 → ∃ v : Word, v.toNat < 2 ^ 21 ∧
      step s = .next { s0 with replies := .word v :: s.replies, draws := s.draws + 1 }) ∧
    (Status.rk s.status ≠ 2#2 → HostMoves (.readReg 5) s s0 →
      step s = .next { s0 with replies := .word (Config.freeWord s.draws) :: s.replies, draws := s.draws + 1 }) ∧
    (∀ j, j < s.cfg.noutMax → Status.rk s.status ≠ 2#2 ∨ s.outLen.toNat ≤ j → HostMoves (.readOut j) s s0 →
      step s = .next { s0 with replies := .byte (Config.freeByte s.draws) :: s.replies, draws := s.draws + 1 })

/-- The hazard rule: while BUSY = 1 a read of STATUS returns it and changes nothing, Reset is permitted, and every other
access, whatever its location, is a fault (spec/70_reset_and_hazards.md R250). That writes to STATUS, RESULT_LO,
RESULT_HI, OUT_LEN and OUT are such accesses is the model's reading of the rule's 'may do nothing else' (log entry 10);
that the host can try to write OUT is log entry 11. -/
def Obligations.HazardRule : Prop :=
  ∀ s s0 : State, s.busy = true →
    (HostMoves (.readReg 1) s s0 → step s = .next { s0 with replies := .word s.status :: s.replies }) ∧
    (HostMoves .reset s s0 → ∃ t, step s = .next t) ∧
    (∀ k v, k ≤ 5 → HostMoves (.writeReg k v) s s0 → step s = .fault .hostWriteWhileBusy) ∧
    (∀ k, k ≤ 5 → k ≠ 1 → HostMoves (.readReg k) s s0 → step s = .fault .hostReadWhileBusy) ∧
    (∀ i v, i < s.cfg.nbytesMax → HostMoves (.writeBuf i v) s s0 → step s = .fault .hostWriteWhileBusy) ∧
    (∀ i, i < s.cfg.nbytesMax → HostMoves (.readBuf i) s s0 → step s = .fault .hostReadWhileBusy) ∧
    (∀ j v, j < s.cfg.noutMax → HostMoves (.writeOut j v) s s0 → step s = .fault .hostWriteWhileBusy) ∧
    (∀ j, j < s.cfg.noutMax → HostMoves (.readOut j) s s0 → step s = .fault .hostReadWhileBusy)

/-- Only the host's breach of the hazard rule faults, and only an access outside the stated ranges is refused: no
command does either, and no turn of the block (spec/70_reset_and_hazards.md R250; spec/20_memory.md R58). -/
def Obligations.OnlyHostAccessesStop : Prop :=
  (∀ (s : State) (f : Fault), step s = .fault f → s.busy = true ∧ ∃ a s0, HostMoves a s s0) ∧
  (∀ (s : State) (r : Refusal), step s = .refused r → ∃ a s0, HostMoves a s s0 ∧
    ((r = .noSuchRegister ∧ ∃ k, 5 < k ∧ (a = .readReg k ∨ ∃ v, a = .writeReg k v)) ∨
     (r = .noSuchBufIndex ∧ ∃ i, s.cfg.nbytesMax ≤ i ∧ (a = .readBuf i ∨ ∃ v, a = .writeBuf i v)) ∨
     (r = .noSuchOutIndex ∧ ∃ j, s.cfg.noutMax ≤ j ∧ (a = .readOut j ∨ ∃ v, a = .writeOut j v))))

/-- Reserved bits: those of STATUS read 0 in every state that meets the invariant, RESULT_HI bits 31:21 read 0 in every
state whether RESULT is valid or not, and a command word with bit 25 or 24 set is illegal (spec/10_state.md R43). -/
def Obligations.ReservedBitsReadZero : Prop :=
  (∀ s : State, s.Inv →
    s.status.getLsbD 3 = false ∧ bitsOf s.status 7 6 = 0 ∧ bitsOf s.status 31 12 = 0) ∧
  (∀ s s0 : State, s.busy = false → HostMoves (.readReg 4) s s0 →
    ∃ v d, step s = .next { s0 with replies := .word v :: s.replies, draws := d } ∧ bitsOf v 31 21 = 0) ∧
  (∀ w : Word, w.getLsbD 25 = true ∨ w.getLsbD 24 = true → decode w = .error .illegalCmd)

/-- A command sees every host write that precedes its issue: after a host write to BUF, one to LEN and the issue of a
word that decodes to `i`, the block's turn is `exec i` on the state with those bytes and that length (spec/20_memory.md
R62 (a), (b)). -/
def Obligations.CommandSeesEarlierWrites : Prop :=
  ∀ (s : State) (a : Nat) (v : Byte) (n w : Word) (i : Instr) (rest : List Event),
    s.Inv → s.busy = false → a < s.cfg.nbytesMax → decode w = .ok i →
    s.inputs = .host (.writeBuf a v) :: .host (.writeReg 2 n) :: .host (.writeReg 0 w) :: .block :: rest →
    ∃ u : State, Host.Core.run Sys2Proof.core 3 s = .next u ∧
      step u = exec i { u with inputs := rest } ∧ u.len = n ∧ u.cmd = w ∧ Memory.read u.buf a = v ∧
      (∀ b, b ≠ a → Memory.read u.buf b = Memory.read s.buf b)

/-- Recovery: after an error the block accepts the next command at once, and its issue clears ERR and CAUSE
(spec/60_exceptions.md R212). -/
def Obligations.NextIssueClearsTheError : Prop :=
  ∀ (i : Instr) (s t : State) (w : Word) (rest : List Event), exec i s = .next t → Status.err t.status = true →
    ∃ u, step { t with inputs := .host (.writeReg 0 w) :: rest } = .next u ∧ u.cmd = w ∧ u.busy = true ∧
      Status.err u.status = false ∧ Status.cause u.status = 0#4 ∧ Status.rk u.status = 0#2
end

