-- ==== Sys2Proof/Laws/Decode.lean ====
section
/-! SUPPORT. The fields of a word laid out by the encoder (spec/30_encoding.md R82, R83). -/

namespace Sys2Proof

/-! ## Format X -/

@[simp] theorem field8_formatX_24 (top byte n off : BitVec 8) : field8 (formatX top byte n off) 24 = top := by
  apply BitVec.eq_of_getLsbD_eq
  intro i hi
  simp only [field8, formatX, BitVec.getLsbD_extractLsb', BitVec.getLsbD_append, hi, decide_true, Bool.true_and]
  rw [if_neg (by omega), if_neg (by omega), if_neg (by omega), show 24 + i - 8 - 8 - 8 = i by omega]

@[simp] theorem field8_formatX_16 (top byte n off : BitVec 8) : field8 (formatX top byte n off) 16 = byte := by
  apply BitVec.eq_of_getLsbD_eq
  intro i hi
  simp only [field8, formatX, BitVec.getLsbD_extractLsb', BitVec.getLsbD_append, hi, decide_true, Bool.true_and]
  rw [if_neg (by omega), if_neg (by omega), if_pos (by omega), show 16 + i - 8 - 8 = i by omega]

@[simp] theorem field8_formatX_8 (top byte n off : BitVec 8) : field8 (formatX top byte n off) 8 = n := by
  apply BitVec.eq_of_getLsbD_eq
  intro i hi
  simp only [field8, formatX, BitVec.getLsbD_extractLsb', BitVec.getLsbD_append, hi, decide_true, Bool.true_and]
  rw [if_neg (by omega), if_pos (by omega), show 8 + i - 8 = i by omega]

@[simp] theorem field8_formatX_0 (top byte n off : BitVec 8) : field8 (formatX top byte n off) 0 = off := by
  apply BitVec.eq_of_getLsbD_eq
  intro i hi
  simp only [field8, formatX, BitVec.getLsbD_extractLsb', BitVec.getLsbD_append, hi, decide_true, Bool.true_and]
  rw [if_pos (by omega), show 0 + i = i by omega]

/-! ## Format R -/

@[simp] theorem field8_formatR_24 (top n : BitVec 8) (off : BitVec 16) : field8 (formatR top n off) 24 = top := by
  apply BitVec.eq_of_getLsbD_eq
  intro i hi
  simp only [field8, formatR, BitVec.getLsbD_extractLsb', BitVec.getLsbD_append, hi, decide_true, Bool.true_and]
  rw [if_neg (by omega), if_neg (by omega), show 24 + i - 16 - 8 = i by omega]

@[simp] theorem field8_formatR_16 (top n : BitVec 8) (off : BitVec 16) : field8 (formatR top n off) 16 = n := by
  apply BitVec.eq_of_getLsbD_eq
  intro i hi
  simp only [field8, formatR, BitVec.getLsbD_extractLsb', BitVec.getLsbD_append, hi, decide_true, Bool.true_and]
  rw [if_neg (by omega), if_pos (by omega), show 16 + i - 16 = i by omega]

@[simp] theorem field16_formatR (top n : BitVec 8) (off : BitVec 16) : field16 (formatR top n off) = off := by
  apply BitVec.eq_of_getLsbD_eq
  intro i hi
  simp only [field16, formatR, BitVec.getLsbD_extractLsb', BitVec.getLsbD_append, hi, decide_true, Bool.true_and]
  rw [if_pos (by omega), show 0 + i = i by omega]

/-! ## A word is its fields -/

theorem formatX_fields (w : Word) : formatX (field8 w 24) (field8 w 16) (field8 w 8) (field8 w 0) = w := by
  apply BitVec.eq_of_getLsbD_eq
  intro i hi
  simp only [field8, formatX, BitVec.getLsbD_extractLsb', BitVec.getLsbD_append]
  split
  · rename_i h
    simp [h]
  · split
    · rename_i h1 h2
      simp [h2, show 8 + (i - 8) = i by omega]
    · split
      · rename_i h1 h2 h3
        simp [h3, show 16 + (i - 8 - 8) = i by omega]
      · rename_i h1 h2 h3
        simp [show i - 8 - 8 - 8 < 8 by omega, show 24 + (i - 8 - 8 - 8) = i by omega]

theorem formatR_fields (w : Word) : formatR (field8 w 24) (field8 w 16) (field16 w) = w := by
  apply BitVec.eq_of_getLsbD_eq
  intro i hi
  simp only [field8, field16, formatR, BitVec.getLsbD_extractLsb', BitVec.getLsbD_append]
  split
  · rename_i h
    simp [h]
  · split
    · rename_i h1 h2
      simp [h2, show 16 + (i - 16) = i by omega]
    · rename_i h1 h2
      simp [show i - 16 - 8 < 8 by omega, show 24 + (i - 16 - 8) = i by omega]

/-- The only word with CROCK's fields. -/
theorem crock_word : formatR 0x40#8 0#8 0#16 = 0x40000000#32 := by decide

/-! ## Signed fields -/

theorem toInt_ofInt_8 {v : Int} (h : fitsSigned8 v = true) : (BitVec.ofInt 8 v).toInt = v := by
  simp only [fitsSigned8, Bool.and_eq_true, decide_eq_true_eq] at h
  rw [BitVec.toInt_ofInt, Int.bmod_def]
  norm_num
  omega

theorem toInt_ofInt_16 {v : Int} (h : fitsSigned16 v = true) : (BitVec.ofInt 16 v).toInt = v := by
  simp only [fitsSigned16, Bool.and_eq_true, decide_eq_true_eq] at h
  rw [BitVec.toInt_ofInt, Int.bmod_def]
  norm_num
  omega

theorem fitsSigned8_toInt (v : BitVec 8) : fitsSigned8 v.toInt = true := by
  have h1 := v.toInt_lt
  have h2 := v.le_toInt
  simp only [fitsSigned8, Bool.and_eq_true, decide_eq_true_eq]
  norm_num at h1 h2
  omega

theorem fitsSigned16_toInt (v : BitVec 16) : fitsSigned16 v.toInt = true := by
  have h1 := v.toInt_lt
  have h2 := v.le_toInt
  simp only [fitsSigned16, Bool.and_eq_true, decide_eq_true_eq]
  norm_num at h1 h2
  omega

end Sys2Proof
end

