-- ==== Sys2Proof/Laws/Memory.lean ====
section
/-! SUPPORT. The byte spaces: a read after a write, the canonical form, and a byte sequence laid out from an address
on. -/

namespace Sys2Proof.Machine

@[simp] theorem Memory.find?_nil (a : Nat) : Memory.find? [] a = none := rfl

@[simp] theorem Memory.read_nil (a : Nat) : Memory.read [] a = 0#8 := rfl

/-- A space that starts above an address lists nothing there. -/
theorem Memory.find?_of_risingFrom {m : Memory} {lo a : Nat} (h : Memory.risingFrom lo m = true) (ha : a < lo) :
    Memory.find? m a = none := by
  induction m generalizing lo with
  | nil => rfl
  | cons c rest ih =>
    obtain ⟨b, w⟩ := c
    simp only [Memory.risingFrom, Bool.and_eq_true, decide_eq_true_eq] at h
    simp only [Memory.find?]
    rw [if_neg (by omega), ih h.2 (by omega)]

theorem Memory.risingFrom_mono {m : Memory} {lo lo' : Nat} (h : Memory.risingFrom lo m = true) (hl : lo' ≤ lo) :
    Memory.risingFrom lo' m = true := by
  cases m with
  | nil => rfl
  | cons c rest =>
    simp only [Memory.risingFrom, Bool.and_eq_true, decide_eq_true_eq] at h ⊢
    exact ⟨by omega, h.2⟩

/-- A read after a write. -/
theorem Memory.read_write_from {m : Memory} {lo : Nat} (h : Memory.risingFrom lo m = true) (a : Nat) (v : Byte)
    (b : Nat) : Memory.read (Memory.write m a v) b = if b = a then v else Memory.read m b := by
  induction m generalizing lo with
  | nil =>
    by_cases hv : v = Memory.unlisted <;> by_cases hb : b = a <;>
      simp [Memory.write, Memory.cellOf, Memory.read, Memory.find?, hv, hb]
  | cons c rest ih =>
    obtain ⟨d, w⟩ := c
    simp only [Memory.risingFrom, Bool.and_eq_true, decide_eq_true_eq] at h
    have hrest := ih h.2
    have hnone : ∀ x, x < d + 1 → Memory.find? rest x = none := fun x hx => Memory.find?_of_risingFrom h.2 hx
    unfold Memory.write
    split
    · have hd := hnone a (by omega)
      have hne : a ≠ d := by omega
      by_cases hv : v = Memory.unlisted <;> by_cases hb : b = a <;>
        simp [Memory.cellOf, Memory.read, Memory.find?, hv, hb, hd, hne]
    · split
      · rename_i hlt heq
        have hd := hnone a (by omega)
        by_cases hv : v = Memory.unlisted <;> by_cases hb : b = a <;>
          simp [Memory.cellOf, Memory.read, Memory.find?, hv, hb, ← heq, hd]
      · rename_i hlt hne
        by_cases hbd : b = d
        · have : b ≠ a := by omega
          simp [Memory.read, Memory.find?, hbd]
          omega
        · have e1 : Memory.read ((d, w) :: Memory.write rest a v) b = Memory.read (Memory.write rest a v) b := by
            simp [Memory.read, Memory.find?, hbd]
          have e2 : Memory.read ((d, w) :: rest) b = Memory.read rest b := by
            simp [Memory.read, Memory.find?, hbd]
          rw [e1, e2, hrest]

/-- A write keeps the addresses strictly rising. -/
theorem Memory.risingFrom_write {m : Memory} {lo : Nat} (h : Memory.risingFrom lo m = true) {a : Nat} (ha : lo ≤ a)
    (v : Byte) : Memory.risingFrom lo (Memory.write m a v) = true := by
  induction m generalizing lo with
  | nil => by_cases hv : v = Memory.unlisted <;> simp [Memory.write, Memory.cellOf, Memory.risingFrom, hv, ha]
  | cons c rest ih =>
    obtain ⟨d, w⟩ := c
    simp only [Memory.risingFrom, Bool.and_eq_true, decide_eq_true_eq] at h
    unfold Memory.write
    split
    · by_cases hv : v = Memory.unlisted
      · simp [Memory.cellOf, Memory.risingFrom, hv, h.1, h.2]
      · simp only [Memory.cellOf, hv, if_false, List.cons_append, List.nil_append, Memory.risingFrom,
          Bool.and_eq_true, decide_eq_true_eq]
        exact ⟨ha, by omega, h.2⟩
    · split
      · by_cases hv : v = Memory.unlisted
        · simpa [Memory.cellOf, hv] using Memory.risingFrom_mono h.2 (by omega)
        · rename_i heq
          simp only [Memory.cellOf, hv, if_false, List.cons_append, List.nil_append, Memory.risingFrom,
            Bool.and_eq_true, decide_eq_true_eq]
          exact ⟨ha, heq ▸ h.2⟩
      · simp only [Memory.risingFrom, Bool.and_eq_true, decide_eq_true_eq]
        exact ⟨h.1, ih h.2 (by omega)⟩

theorem Memory.noDefault_cons (c : Host.Cell) (m : Memory) :
    Memory.noDefault (c :: m) = (decide (c.2 ≠ Memory.unlisted) && Memory.noDefault m) := rfl

theorem Memory.noDefault_append (m m' : Memory) :
    Memory.noDefault (m ++ m') = (Memory.noDefault m && Memory.noDefault m') := by
  simp only [Memory.noDefault, List.all_append]

theorem Memory.noDefault_cellOf (a : Nat) (v : Byte) : Memory.noDefault (Memory.cellOf a v) = true := by
  by_cases hv : v = Memory.unlisted <;> simp [Memory.cellOf, Memory.noDefault, hv]

/-- A write lists no default value. -/
theorem Memory.noDefault_write {m : Memory} (h : Memory.noDefault m = true) (a : Nat) (v : Byte) :
    Memory.noDefault (Memory.write m a v) = true := by
  induction m with
  | nil => exact Memory.noDefault_cellOf a v
  | cons c rest ih =>
    have hc := h
    rw [Memory.noDefault_cons, Bool.and_eq_true] at hc
    unfold Memory.write
    split
    · rw [Memory.noDefault_append, Memory.noDefault_cellOf, h]; rfl
    · split
      · rw [Memory.noDefault_append, Memory.noDefault_cellOf, hc.2]; rfl
      · rw [Memory.noDefault_cons, hc.1, ih hc.2]; rfl

/-- A write keeps the canonical form. -/
theorem Memory.wf_write {m : Memory} (h : Memory.wf m = true) (a : Nat) (v : Byte) :
    Memory.wf (Memory.write m a v) = true := by
  simp only [Memory.wf, Memory.rising, Bool.and_eq_true] at h ⊢
  exact ⟨Memory.risingFrom_write h.1 (Nat.zero_le a) v, Memory.noDefault_write h.2 a v⟩

/-- BUF has the canonical form after reset, whatever the capacities. -/
theorem State.resetWith_buf_wf (cfg : Config) : Memory.wf (State.resetWith cfg).buf = true := rfl

/-- A read after a write to a canonical space. -/
theorem Memory.read_write {m : Memory} (h : Memory.wf m = true) (a : Nat) (v : Byte) (b : Nat) :
    Memory.read (Memory.write m a v) b = if b = a then v else Memory.read m b := by
  simp only [Memory.wf, Memory.rising, Bool.and_eq_true] at h
  exact Memory.read_write_from h.1 a v b

theorem Memory.below_cons (n : Nat) (c : Host.Cell) (m : Memory) :
    Memory.below n (c :: m) = (decide (c.1 < n) && Memory.below n m) := rfl

theorem Memory.below_append (n : Nat) (m m' : Memory) :
    Memory.below n (m ++ m') = (Memory.below n m && Memory.below n m') := by
  simp only [Memory.below, List.all_append]

theorem Memory.below_cellOf {n a : Nat} (ha : a < n) (v : Byte) : Memory.below n (Memory.cellOf a v) = true := by
  by_cases hv : v = Memory.unlisted <;> simp [Memory.cellOf, Memory.below, hv, ha]

/-- A write below the capacity keeps every listed address below it. -/
theorem Memory.below_write {m : Memory} {n : Nat} (h : Memory.below n m = true) {a : Nat} (ha : a < n) (v : Byte) :
    Memory.below n (Memory.write m a v) = true := by
  induction m with
  | nil => exact Memory.below_cellOf ha v
  | cons c rest ih =>
    have hc := h
    rw [Memory.below_cons, Bool.and_eq_true] at hc
    unfold Memory.write
    split
    · rw [Memory.below_append, Memory.below_cellOf ha, h]; rfl
    · split
      · rw [Memory.below_append, Memory.below_cellOf ha, hc.2]; rfl
      · rw [Memory.below_cons, hc.1, ih hc.2]; rfl

/-! ## A byte sequence laid out in a space -/

theorem Memory.risingFrom_ofBytes (a : Nat) (bytes : List Byte) :
    Memory.risingFrom a (Memory.ofBytes a bytes) = true := by
  induction bytes generalizing a with
  | nil => rfl
  | cons v rest ih => simp [Memory.ofBytes, Memory.risingFrom, ih]

theorem Memory.rising_ofBytes (bytes : List Byte) : Memory.rising (Memory.ofBytes 0 bytes) = true :=
  Memory.risingFrom_ofBytes 0 bytes

/-- The sequence reads back byte by byte, and nothing is listed beyond it. -/
theorem Memory.find?_ofBytes_add (a : Nat) (bytes : List Byte) (j : Nat) :
    Memory.find? (Memory.ofBytes a bytes) (a + j) = bytes[j]? := by
  induction bytes generalizing a j with
  | nil => rfl
  | cons v rest ih =>
    cases j with
    | zero => simp [Memory.ofBytes, Memory.find?]
    | succ j =>
      have h := ih (a + 1) j
      rw [show a + 1 + j = a + (j + 1) by omega] at h
      simp [Memory.ofBytes, Memory.find?, h]

theorem Memory.find?_ofBytes (bytes : List Byte) (j : Nat) :
    Memory.find? (Memory.ofBytes 0 bytes) j = bytes[j]? := by
  simpa using Memory.find?_ofBytes_add 0 bytes j

theorem Memory.below_ofBytes {n : Nat} (a : Nat) (bytes : List Byte) (h : a + bytes.length ≤ n) :
    Memory.below n (Memory.ofBytes a bytes) = true := by
  induction bytes generalizing a with
  | nil => rfl
  | cons v rest ih =>
    simp only [List.length_cons] at h
    rw [Memory.ofBytes, Memory.below_cons, ih (a + 1) (by omega), Bool.and_true, decide_eq_true_eq]
    omega

end Sys2Proof.Machine
end

