-- ==== Sys2Proof/Laws/State.lean ====
section
/-! SUPPORT. One lemma per field per update of State, true by rfl, so that no proof unfolds a record update. -/

namespace Sys2Proof.Machine

/-! ## issue -/

@[simp] theorem State.issue_cfg (s : State) (w : Word) : (s.issue w).cfg = s.cfg := rfl
@[simp] theorem State.issue_cmd (s : State) (w : Word) : (s.issue w).cmd = w := rfl
@[simp] theorem State.issue_status (s : State) (w : Word) : (s.issue w).status = Status.issued := rfl
@[simp] theorem State.issue_len (s : State) (w : Word) : (s.issue w).len = s.len := rfl
@[simp] theorem State.issue_buf (s : State) (w : Word) : (s.issue w).buf = s.buf := rfl
@[simp] theorem State.issue_result (s : State) (w : Word) : (s.issue w).result = s.result := rfl
@[simp] theorem State.issue_out (s : State) (w : Word) : (s.issue w).out = s.out := rfl
@[simp] theorem State.issue_outLen (s : State) (w : Word) : (s.issue w).outLen = s.outLen := rfl
@[simp] theorem State.issue_inputs (s : State) (w : Word) : (s.issue w).inputs = s.inputs := rfl
@[simp] theorem State.issue_replies (s : State) (w : Word) : (s.issue w).replies = s.replies := rfl
@[simp] theorem State.issue_draws (s : State) (w : Word) : (s.issue w).draws = s.draws := rfl

/-! ## raise -/

@[simp] theorem State.raise_cfg (s : State) (c : Cause) : (s.raise c).cfg = s.cfg := rfl
@[simp] theorem State.raise_cmd (s : State) (c : Cause) : (s.raise c).cmd = s.cmd := rfl
@[simp] theorem State.raise_status (s : State) (c : Cause) : (s.raise c).status = Status.violation c := rfl
@[simp] theorem State.raise_len (s : State) (c : Cause) : (s.raise c).len = s.len := rfl
@[simp] theorem State.raise_buf (s : State) (c : Cause) : (s.raise c).buf = s.buf := rfl
@[simp] theorem State.raise_result (s : State) (c : Cause) : (s.raise c).result = s.result := rfl
@[simp] theorem State.raise_out (s : State) (c : Cause) : (s.raise c).out = s.out := rfl
@[simp] theorem State.raise_outLen (s : State) (c : Cause) : (s.raise c).outLen = s.outLen := rfl
@[simp] theorem State.raise_inputs (s : State) (c : Cause) : (s.raise c).inputs = s.inputs := rfl
@[simp] theorem State.raise_replies (s : State) (c : Cause) : (s.raise c).replies = s.replies := rfl
@[simp] theorem State.raise_draws (s : State) (c : Cause) : (s.raise c).draws = s.draws := rfl

/-! ## returnScalar -/

@[simp] theorem State.returnScalar_cfg (s : State) (v : Nat) : (s.returnScalar v).cfg = s.cfg := rfl
@[simp] theorem State.returnScalar_cmd (s : State) (v : Nat) : (s.returnScalar v).cmd = s.cmd := rfl
@[simp] theorem State.returnScalar_status (s : State) (v : Nat) : (s.returnScalar v).status = Status.doneScalar := rfl
@[simp] theorem State.returnScalar_len (s : State) (v : Nat) : (s.returnScalar v).len = s.len := rfl
@[simp] theorem State.returnScalar_buf (s : State) (v : Nat) : (s.returnScalar v).buf = s.buf := rfl
@[simp] theorem State.returnScalar_result (s : State) (v : Nat) : (s.returnScalar v).result = BitVec.ofNat 53 v := rfl
@[simp] theorem State.returnScalar_out (s : State) (v : Nat) : (s.returnScalar v).out = s.out := rfl
@[simp] theorem State.returnScalar_outLen (s : State) (v : Nat) : (s.returnScalar v).outLen = s.outLen := rfl
@[simp] theorem State.returnScalar_inputs (s : State) (v : Nat) : (s.returnScalar v).inputs = s.inputs := rfl
@[simp] theorem State.returnScalar_replies (s : State) (v : Nat) : (s.returnScalar v).replies = s.replies := rfl
@[simp] theorem State.returnScalar_draws (s : State) (v : Nat) : (s.returnScalar v).draws = s.draws := rfl

/-! ## returnSequence -/

@[simp] theorem State.returnSequence_cfg (s : State) (bytes : List Byte) : (s.returnSequence bytes).cfg = s.cfg := rfl
@[simp] theorem State.returnSequence_cmd (s : State) (bytes : List Byte) : (s.returnSequence bytes).cmd = s.cmd := rfl
@[simp] theorem State.returnSequence_status (s : State) (bytes : List Byte) : (s.returnSequence bytes).status = Status.doneSequence := rfl
@[simp] theorem State.returnSequence_len (s : State) (bytes : List Byte) : (s.returnSequence bytes).len = s.len := rfl
@[simp] theorem State.returnSequence_buf (s : State) (bytes : List Byte) : (s.returnSequence bytes).buf = s.buf := rfl
@[simp] theorem State.returnSequence_result (s : State) (bytes : List Byte) : (s.returnSequence bytes).result = s.result := rfl
@[simp] theorem State.returnSequence_out (s : State) (bytes : List Byte) : (s.returnSequence bytes).out = Memory.ofBytes 0 bytes := rfl
@[simp] theorem State.returnSequence_outLen (s : State) (bytes : List Byte) : (s.returnSequence bytes).outLen = BitVec.ofNat 32 bytes.length := rfl
@[simp] theorem State.returnSequence_inputs (s : State) (bytes : List Byte) : (s.returnSequence bytes).inputs = s.inputs := rfl
@[simp] theorem State.returnSequence_replies (s : State) (bytes : List Byte) : (s.returnSequence bytes).replies = s.replies := rfl
@[simp] theorem State.returnSequence_draws (s : State) (bytes : List Byte) : (s.returnSequence bytes).draws = s.draws := rfl

/-! ## answer -/

@[simp] theorem State.answer_cfg (s : State) (r : Reply) : (s.answer r).cfg = s.cfg := rfl
@[simp] theorem State.answer_cmd (s : State) (r : Reply) : (s.answer r).cmd = s.cmd := rfl
@[simp] theorem State.answer_status (s : State) (r : Reply) : (s.answer r).status = s.status := rfl
@[simp] theorem State.answer_len (s : State) (r : Reply) : (s.answer r).len = s.len := rfl
@[simp] theorem State.answer_buf (s : State) (r : Reply) : (s.answer r).buf = s.buf := rfl
@[simp] theorem State.answer_result (s : State) (r : Reply) : (s.answer r).result = s.result := rfl
@[simp] theorem State.answer_out (s : State) (r : Reply) : (s.answer r).out = s.out := rfl
@[simp] theorem State.answer_outLen (s : State) (r : Reply) : (s.answer r).outLen = s.outLen := rfl
@[simp] theorem State.answer_inputs (s : State) (r : Reply) : (s.answer r).inputs = s.inputs := rfl
@[simp] theorem State.answer_replies (s : State) (r : Reply) : (s.answer r).replies = r :: s.replies := rfl
@[simp] theorem State.answer_draws (s : State) (r : Reply) : (s.answer r).draws = s.draws := rfl

/-! ## reset -/

@[simp] theorem State.resetWith_cfg (cfg : Config) : (State.resetWith cfg).cfg = cfg := rfl
@[simp] theorem State.resetWith_cmd (cfg : Config) : (State.resetWith cfg).cmd = 0#32 := rfl
@[simp] theorem State.resetWith_status (cfg : Config) : (State.resetWith cfg).status = 0#32 := rfl
@[simp] theorem State.resetWith_len (cfg : Config) : (State.resetWith cfg).len = 0#32 := rfl
@[simp] theorem State.resetWith_buf (cfg : Config) : (State.resetWith cfg).buf = [] := rfl
@[simp] theorem State.resetWith_result (cfg : Config) : (State.resetWith cfg).result = 0#53 := rfl
@[simp] theorem State.resetWith_out (cfg : Config) : (State.resetWith cfg).out = [] := rfl
@[simp] theorem State.resetWith_outLen (cfg : Config) : (State.resetWith cfg).outLen = 0#32 := rfl
@[simp] theorem State.resetWith_inputs (cfg : Config) : (State.resetWith cfg).inputs = [] := rfl
@[simp] theorem State.resetWith_replies (cfg : Config) : (State.resetWith cfg).replies = [] := rfl
@[simp] theorem State.resetWith_draws (cfg : Config) : (State.resetWith cfg).draws = 0 := rfl

@[simp] theorem State.hostReset_cfg (s : State) : s.hostReset.cfg = s.cfg := rfl
@[simp] theorem State.hostReset_cmd (s : State) : s.hostReset.cmd = 0#32 := rfl
@[simp] theorem State.hostReset_status (s : State) : s.hostReset.status = 0#32 := rfl
@[simp] theorem State.hostReset_len (s : State) : s.hostReset.len = 0#32 := rfl
@[simp] theorem State.hostReset_buf (s : State) : s.hostReset.buf = [] := rfl
@[simp] theorem State.hostReset_result (s : State) : s.hostReset.result = 0#53 := rfl
@[simp] theorem State.hostReset_out (s : State) : s.hostReset.out = [] := rfl
@[simp] theorem State.hostReset_outLen (s : State) : s.hostReset.outLen = 0#32 := rfl
@[simp] theorem State.hostReset_inputs (s : State) : s.hostReset.inputs = s.inputs := rfl
@[simp] theorem State.hostReset_replies (s : State) : s.hostReset.replies = s.replies := rfl
@[simp] theorem State.hostReset_draws (s : State) : s.hostReset.draws = s.draws := rfl

end Sys2Proof.Machine
end

