-- ==== Sys2Proof/Laws/Status.lean ====
section
/-! SUPPORT. The values and the fields of STATUS (spec/10_state.md R22, R23). -/

namespace Sys2Proof.Machine

/-! ## The values, as words -/

theorem Status.issued_eq : Status.issued = 0x1#32 := by decide
theorem Status.doneScalar_eq : Status.doneScalar = 0x12#32 := by decide
theorem Status.doneSequence_eq : Status.doneSequence = 0x22#32 := by decide
theorem Status.violation_eq (c : Cause) : Status.violation c = 0x6#32 + 256#32 * c.code.setWidth 32 := by
  cases c <;> decide

/-! ## The fields of each value -/

@[simp] theorem Status.busy_zero : Status.busy 0#32 = false := by decide
@[simp] theorem Status.done_zero : Status.done 0#32 = false := by decide
@[simp] theorem Status.err_zero : Status.err 0#32 = false := by decide
@[simp] theorem Status.rk_zero : Status.rk 0#32 = 0#2 := by decide
@[simp] theorem Status.cause_zero : Status.cause 0#32 = 0#4 := by decide

@[simp] theorem Status.busy_issued : Status.busy Status.issued = true := by decide
@[simp] theorem Status.done_issued : Status.done Status.issued = false := by decide
@[simp] theorem Status.err_issued : Status.err Status.issued = false := by decide
@[simp] theorem Status.rk_issued : Status.rk Status.issued = 0#2 := by decide
@[simp] theorem Status.cause_issued : Status.cause Status.issued = 0#4 := by decide

@[simp] theorem Status.busy_doneScalar : Status.busy Status.doneScalar = false := by decide
@[simp] theorem Status.done_doneScalar : Status.done Status.doneScalar = true := by decide
@[simp] theorem Status.err_doneScalar : Status.err Status.doneScalar = false := by decide
@[simp] theorem Status.rk_doneScalar : Status.rk Status.doneScalar = 1#2 := by decide
@[simp] theorem Status.cause_doneScalar : Status.cause Status.doneScalar = 0#4 := by decide

@[simp] theorem Status.busy_doneSequence : Status.busy Status.doneSequence = false := by decide
@[simp] theorem Status.done_doneSequence : Status.done Status.doneSequence = true := by decide
@[simp] theorem Status.err_doneSequence : Status.err Status.doneSequence = false := by decide
@[simp] theorem Status.rk_doneSequence : Status.rk Status.doneSequence = 2#2 := by decide
@[simp] theorem Status.cause_doneSequence : Status.cause Status.doneSequence = 0#4 := by decide

@[simp] theorem Status.busy_violation (c : Cause) : Status.busy (Status.violation c) = false := by cases c <;> decide
@[simp] theorem Status.done_violation (c : Cause) : Status.done (Status.violation c) = true := by cases c <;> decide
@[simp] theorem Status.err_violation (c : Cause) : Status.err (Status.violation c) = true := by cases c <;> decide
@[simp] theorem Status.rk_violation (c : Cause) : Status.rk (Status.violation c) = 0#2 := by cases c <;> decide
@[simp] theorem Status.cause_violation (c : Cause) : Status.cause (Status.violation c) = c.code := by
  cases c <;> decide

theorem Cause.code_ne_zero (c : Cause) : c.code ≠ 0#4 := by cases c <;> decide

@[simp] theorem ResultKind.bits_none : ResultKind.none.bits = 0#2 := rfl
@[simp] theorem ResultKind.bits_scalar : ResultKind.scalar.bits = 1#2 := rfl
@[simp] theorem ResultKind.bits_sequence : ResultKind.sequence.bits = 2#2 := rfl

/-! ## Membership in the reachable values -/

theorem Status.reachable_zero : 0#32 ∈ Status.reachable := by decide
theorem Status.reachable_issued : Status.issued ∈ Status.reachable := by decide
theorem Status.reachable_doneScalar : Status.doneScalar ∈ Status.reachable := by decide
theorem Status.reachable_doneSequence : Status.doneSequence ∈ Status.reachable := by decide
theorem Status.reachable_violation (c : Cause) : Status.violation c ∈ Status.reachable := by cases c <;> decide

end Sys2Proof.Machine
end

