-- ==== Sys2Proof/Laws/Stream.lean ====
section
/-! SUPPORT. The bit stream and the integers read from it: the recursion of the bit-level definition, its bound and its
dependence on the bits read (spec/41_bit_reader.md R133), and the byte reads (spec/20_memory.md R54, R55). -/

namespace Sys2Proof.Machine

theorem bitAt_eq (rd : Int → Byte) (p : Int) :
    bitAt rd p = (rd (p / 8)).toNat / 2 ^ (7 - p % 8).toNat % 2 := by
  simp only [bitAt, Nat.and_one_is_mod, Nat.shiftRight_eq_div_pow]

theorem bitAt_lt_two (rd : Int → Byte) (p : Int) : bitAt rd p < 2 := by
  rw [bitAt_eq]; exact Nat.mod_lt _ (by decide)

@[simp] theorem readBits_zero (rd : Int → Byte) (off : Int) : readBits rd off 0 = 0 := rfl

/-- Reading one more bit doubles what was read and adds the bit. -/
theorem readBits_succ (rd : Int → Byte) (off : Int) (n : Nat) :
    readBits rd off (n + 1) = 2 * readBits rd off n + bitAt rd (off + n) := by
  unfold readBits
  rw [List.range_succ, List.map_append, List.sum_append, ← List.sum_map_mul_left]
  have hcongr : ∀ k ∈ List.range n,
      bitAt rd (off + (k : Nat)) * 2 ^ (n + 1 - 1 - k) = 2 * (bitAt rd (off + (k : Nat)) * 2 ^ (n - 1 - k)) := by
    intro k hk
    have hk : k < n := List.mem_range.mp hk
    rw [show n + 1 - 1 - k = (n - 1 - k) + 1 by omega, pow_succ]
    ring
  rw [List.map_congr_left hcongr]
  simp

/-- A read of n bits is below 2^n. -/
theorem readBits_lt (rd : Int → Byte) (off : Int) (n : Nat) : readBits rd off n < 2 ^ n := by
  induction n with
  | zero => simp
  | succ n ih =>
    have := bitAt_lt_two rd (off + n)
    rw [readBits_succ, pow_succ]
    omega

/-- A read depends on the bits it covers alone. -/
theorem readBits_congr {rd rd' : Int → Byte} {off off' : Int} {n : Nat}
    (h : ∀ k : Nat, k < n → bitAt rd (off + k) = bitAt rd' (off' + k)) : readBits rd off n = readBits rd' off' n := by
  induction n with
  | zero => rfl
  | succ n ih =>
    rw [readBits_succ, readBits_succ, ih fun k hk => h k (by omega), h n (by omega)]

/-- The span of a byte as division and remainder. -/
theorem xbyte_eq (b : Byte) (o n : Nat) : xbyte b o n = b.toNat / 2 ^ (8 - o - n) % 2 ^ n := by
  have h : ((8 : Int) - o - n).toNat = 8 - o - n := by omega
  simp only [xbyte, h, Int.toNat_natCast, Nat.and_two_pow_sub_one_eq_mod, Nat.shiftRight_eq_div_pow]

theorem xbyte_lt (b : Byte) (o n : Int) : xbyte b o n < 2 ^ n.toNat := by
  rw [xbyte, Nat.and_two_pow_sub_one_eq_mod]
  exact Nat.mod_lt _ (Nat.two_pow_pos _)

theorem memReadLoose_inside {s : State} {i : Int} (h0 : 0 ≤ i) (h1 : i < (s.len.toNat : Int)) :
    memReadLoose s i = memRead s i := by
  simp [memReadLoose, memRead, h0, h1]

theorem memReadLoose_outside {s : State} {i : Int} (h : i < 0 ∨ (s.len.toNat : Int) ≤ i) : memReadLoose s i = 0#8 := by
  rw [memReadLoose, if_neg]; omega

/-- Loose bits before the start and past the end are 0 (R70). -/
theorem bitAt_outside {s : State} {p : Int} (h : p < 0 ∨ 8 * (s.len.toNat : Int) ≤ p) :
    bitAt (memReadLoose s) p = 0 := by
  rw [bitAt_eq, memReadLoose_outside (by omega)]
  simp

/-- Loose and strict bits agree inside the buffer. -/
theorem bitAt_inside {s : State} {p : Int} (h0 : 0 ≤ p) (h1 : p < 8 * (s.len.toNat : Int)) :
    bitAt (memReadLoose s) p = bitAt (memRead s) p := by
  rw [bitAt_eq, bitAt_eq, memReadLoose_inside (by omega) (by omega)]

/-- `ceilDiv a b` is the least q with a ≤ q * b. -/
theorem ceilDiv_le_iff {a b q : Int} (hb : 0 < b) : ceilDiv a b ≤ q ↔ a ≤ q * b := by
  unfold ceilDiv
  constructor
  · intro h
    have h1 : -q ≤ (-a) / b := by omega
    have := (Int.le_ediv_iff_mul_le hb).mp h1
    linarith
  · intro h
    have : -q ≤ (-a) / b := (Int.le_ediv_iff_mul_le hb).mpr (by linarith)
    omega

theorem le_ceilDiv_mul {a b : Int} (hb : 0 < b) : a ≤ ceilDiv a b * b := (ceilDiv_le_iff hb).mp le_rfl

theorem ceilDiv_mul_lt {a b : Int} (hb : 0 < b) : ceilDiv a b * b < a + b := by
  by_contra h
  have := (ceilDiv_le_iff (a := a) (q := ceilDiv a b - 1) hb).mpr (by linarith)
  omega

end Sys2Proof.Machine
end

