-- ==== Sys2Proof/Laws/Ops.lean ====
section
/-! SUPPORT. What each shared operation can do, said once: a command (`exec_cases`), the completion, a turn of the block,
a host action, a step. Later proofs cite these and do not unfold the operations. -/

namespace Sys2Proof.Machine

/-! ## Commands -/

/-- A command raises one of its causes, or returns a scalar, or returns a sequence of at most NOUT_MAX bytes. -/
theorem exec_cases (i : Instr) (s : State) :
    (∃ c, c ∈ possibleCauses i ∧ exec i s = .next (s.raise c)) ∨
    (scalarCommand i = true ∧ ∃ v, exec i s = .next (s.returnScalar v)) ∨
    (scalarCommand i = false ∧ ∃ bytes, exec i s = .next (s.returnSequence bytes) ∧
      (34 ≤ s.cfg.noutMax → bytes.length ≤ s.cfg.noutMax)) := by
  cases i with
  | xbyte b o n =>
    simp only [exec, execXbyte]
    split
    · exact .inl ⟨_, by simp [possibleCauses], rfl⟩
    · split
      · exact .inl ⟨_, by simp [possibleCauses], rfl⟩
      · split
        · exact .inl ⟨_, by simp [possibleCauses], rfl⟩
        · exact .inr (.inl ⟨rfl, _, rfl⟩)
  | xbyteD b o =>
    simp only [exec, execXbyteD]
    split
    · exact .inl ⟨_, by simp [possibleCauses], rfl⟩
    · exact .inr (.inl ⟨rfl, _, rfl⟩)
  | rdbits off n =>
    simp only [exec, execRdbits]
    split
    · exact .inl ⟨_, by simp [possibleCauses], rfl⟩
    · split
      · exact .inl ⟨_, by simp [possibleCauses], rfl⟩
      · split
        · exact .inl ⟨_, by simp [possibleCauses], rfl⟩
        · split
          · exact .inl ⟨_, by simp [possibleCauses], rfl⟩
          · exact .inr (.inl ⟨rfl, _, rfl⟩)
  | rdbitsL off n =>
    simp only [exec, execRdbitsL]
    split
    · exact .inl ⟨_, by simp [possibleCauses], rfl⟩
    · split
      · exact .inl ⟨_, by simp [possibleCauses], rfl⟩
      · exact .inr (.inl ⟨rfl, _, rfl⟩)
  | unpack bits off =>
    simp only [exec, execUnpack]
    split
    · exact .inl ⟨_, by simp [possibleCauses], rfl⟩
    · split
      · exact .inl ⟨_, by simp [possibleCauses], rfl⟩
      · split
        · exact .inl ⟨_, by simp [possibleCauses], rfl⟩
        · refine .inr (.inr ⟨rfl, _, rfl, fun _ => ?_⟩)
          simp only [groups, List.length_map, List.length_range]
          omega
  | crock =>
    simp only [exec, execCrock]
    split
    · exact .inl ⟨_, by simp [possibleCauses], rfl⟩
    · split
      · exact .inl ⟨_, by simp [possibleCauses], rfl⟩
      · exact .inr (.inr ⟨rfl, _, rfl, fun h => by simpa [crockText] using h⟩)

/-- The completion of the command in CMD raises a cause, or returns a scalar, or returns a sequence, as its kind says. -/
theorem complete_cases (s : State) :
    (∃ c, complete s = .next (s.raise c)) ∨
    (s.cmdIs true = true ∧ ∃ v, complete s = .next (s.returnScalar v)) ∨
    (s.cmdIs false = true ∧ ∃ bytes, complete s = .next (s.returnSequence bytes) ∧
      (34 ≤ s.cfg.noutMax → bytes.length ≤ s.cfg.noutMax)) := by
  cases hd : decode s.cmd with
  | ok i =>
    have hc : complete s = exec i s := by simp [complete, hd]
    have hk : ∀ b, s.cmdIs b = (scalarCommand i == b) := by simp [State.cmdIs, hd]
    rw [hc, hk, hk]
    obtain ⟨c, -, h⟩ | ⟨hs, v, h⟩ | ⟨hs, bytes, h, hlen⟩ := exec_cases i s
    · exact .inl ⟨c, h⟩
    · exact .inr (.inl ⟨by rw [hs]; rfl, v, h⟩)
    · exact .inr (.inr ⟨by rw [hs]; rfl, bytes, h, hlen⟩)
  | error e => exact .inl ⟨_, by simp [complete, hd]; rfl⟩

/-! ## Host reads -/

/-- A host read of a register adds one reply, draws at most one free value, and leaves the rest alone. -/
theorem State.answerRegister_eq (s : State) (k : Nat) :
    ∃ v d, s.answerRegister k = { s with replies := .word v :: s.replies, draws := d } := by
  unfold State.answerRegister
  split
  · exact ⟨_, s.draws, rfl⟩
  · exact ⟨_, _, rfl⟩

/-- A host read of OUT adds one reply, draws at most one free value, and leaves the rest alone. -/
theorem State.answerOut_eq (s : State) (j : Nat) :
    ∃ v d, s.answerOut j = { s with replies := .byte v :: s.replies, draws := d } := by
  unfold State.answerOut
  split
  · exact ⟨_, s.draws, rfl⟩
  · exact ⟨_, _, rfl⟩

/-! ## Steps -/

/-- A host action that answers a next state was in range, permitted, and had its effect. -/
theorem hostAct_next {a : HostAction} {s t : State} (h : hostAct a s = .next t) :
    a.outOfRange? s.cfg = none ∧ (s.busy = true → a.hazard? = none) ∧ t = s.perform a := by
  unfold hostAct at h
  split at h
  · cases h
  · rename_i hr
    split at h
    · cases h
    · rename_i hz
      refine ⟨hr, fun hb => by simpa [hb] using hz, ?_⟩
      simpa using h.symm

/-- A host action in range at an idle block has its effect. -/
theorem hostAct_idle {a : HostAction} {s : State} (hr : a.outOfRange? s.cfg = none) (hb : s.busy = false) :
    hostAct a s = .next (s.perform a) := by
  simp [hostAct, hr, hb]

/-- A host action in range at a busy block has its effect if the hazard rule permits it, else it is a fault. -/
theorem hostAct_busy {a : HostAction} {s : State} (hr : a.outOfRange? s.cfg = none) (hb : s.busy = true) :
    hostAct a s = match a.hazard? with
      | some f => .fault f
      | none => .next (s.perform a) := by
  cases hz : a.hazard? <;> simp [hostAct, hr, hb, hz]

/-- The step when it is the block's turn. -/
theorem step_block {s s0 : State} (h : BlockMoves s s0) : step s = blockTurn s0 := by
  obtain ⟨hi, rfl⟩ | ⟨rest, hi, rfl⟩ := h <;> simp [step, nextEvent, hi]

/-- The step when the host acts. -/
theorem step_host {a : HostAction} {s s0 : State} (h : HostMoves a s s0) : step s = hostAct a s0 := by
  obtain ⟨rest, hi, rfl⟩ := h
  simp [step, nextEvent, hi]

/-- Taking an event off the list changes nothing else. -/
theorem HostMoves.eq {a : HostAction} {s s0 : State} (h : HostMoves a s s0) : s0 = { s with inputs := s0.inputs } := by
  obtain ⟨rest, -, rfl⟩ := h
  rfl

/-- Taking an event off the list changes nothing else. -/
theorem BlockMoves.eq {s s0 : State} (h : BlockMoves s s0) : s0 = { s with inputs := s0.inputs } := by
  obtain ⟨-, rfl⟩ | ⟨rest, -, rfl⟩ := h <;> rfl

/-- The step when the host acts, in range, on an idle block. -/
theorem step_host_idle {a : HostAction} {s s0 : State} (h : HostMoves a s s0) (hr : a.outOfRange? s.cfg = none)
    (hb : s.busy = false) : step s = .next (s0.perform a) := by
  rw [step_host h]
  obtain ⟨rest, -, rfl⟩ := h
  exact hostAct_idle hr hb

/-- The step when the host acts, in range, on a busy block. -/
theorem step_host_busy {a : HostAction} {s s0 : State} (h : HostMoves a s s0) (hr : a.outOfRange? s.cfg = none)
    (hb : s.busy = true) : step s = match a.hazard? with
      | some f => .fault f
      | none => .next (s0.perform a) := by
  rw [step_host h]
  obtain ⟨rest, -, rfl⟩ := h
  exact hostAct_busy hr hb

/-- The step when it is a busy block's turn. -/
theorem step_block_busy {s s0 : State} (h : BlockMoves s s0) (hb : s.busy = true) : step s = complete s0 := by
  rw [step_block h, h.eq]
  have : State.busy { s with inputs := s0.inputs } = true := hb
  simp [blockTurn, this]

/-- The step when it is an idle block's turn. -/
theorem step_block_idle {s s0 : State} (h : BlockMoves s s0) (hb : s.busy = false) : step s = .next s0 := by
  rw [step_block h, h.eq]
  have : State.busy { s with inputs := s0.inputs } = false := hb
  simp [blockTurn, this]

/-- What a step can do: nothing at an idle block, a completion, one permitted host action, or one poll. -/
theorem step_next {s t : State} (h : step s = .next t) :
    (∃ s0, BlockMoves s s0 ∧ s.busy = false ∧ t = s0) ∨
    (∃ s0, BlockMoves s s0 ∧ s.busy = true ∧ complete s0 = .next t) ∨
    (∃ a s0, HostMoves a s s0 ∧ a.outOfRange? s.cfg = none ∧ (s.busy = true → a.hazard? = none) ∧
      t = s0.perform a) ∨
    (∃ ev, t = { s with inputs := ev, replies := .word s.status :: s.replies }) := by
  have hblock : ∀ s0, BlockMoves s s0 → s0.status = s.status → blockTurn s0 = .next t →
      (∃ s0, BlockMoves s s0 ∧ s.busy = false ∧ t = s0) ∨
      (∃ s0, BlockMoves s s0 ∧ s.busy = true ∧ complete s0 = .next t) := by
    intro s0 hm hst ht
    have hbusy : s0.busy = s.busy := by simp only [State.busy, hst]
    cases hb : s.busy with
    | true => exact .inr ⟨s0, hm, rfl, by simpa [blockTurn, hbusy, hb] using ht⟩
    | false => exact .inl ⟨s0, hm, rfl, by simpa [blockTurn, hbusy, hb] using ht.symm⟩
  cases hin : s.inputs with
  | nil =>
    have hm : BlockMoves s s := .inl ⟨hin, rfl⟩
    exact (hblock s hm rfl (step_block hm ▸ h)).elim .inl fun h => .inr (.inl h)
  | cons ev rest =>
    cases ev with
    | block =>
      have hm : BlockMoves s { s with inputs := rest } := .inr ⟨rest, hin, rfl⟩
      exact (hblock _ hm rfl (step_block hm ▸ h)).elim .inl fun h => .inr (.inl h)
    | host a =>
      have hm : HostMoves a s { s with inputs := rest } := ⟨rest, hin, rfl⟩
      rw [step_host hm] at h
      obtain ⟨hr, hz, rfl⟩ := hostAct_next h
      exact .inr (.inr (.inl ⟨a, _, hm, hr, hz, rfl⟩))
    | wait =>
      simp only [step, nextEvent, hin, pollStatus] at h
      split at h <;> exact .inr (.inr (.inr ⟨_, by simpa [State.answer] using h.symm⟩))

end Sys2Proof.Machine
end

