-- ==== Sys2Proof/Laws/PerInstr.lean ====
section
/-! SUPPORT. Statements about every command as syntax, one lemma per constructor (LAWS.json). -/

namespace Sys2Proof.Laws.TopByte

/-- The top byte of each command's row (spec/30_encoding.md R85). -/
def expected : Instr → BitVec 8
  | .xbyte _ _ _ => 0x10#8
  | .xbyteD _ _ => 0x14#8
  | .rdbits _ _ => 0x20#8
  | .rdbitsL _ _ => 0x28#8
  | .unpack _ _ => 0x30#8
  | .crock => 0x40#8

/-- The encoding of a command, well formed or not, carries its row's top byte: an operand never spills into it. -/
def Statement (i : Instr) : Prop := field8 (encode i) 24 = expected i

theorem xbyte (byte : Byte) (offset length : Int) : Statement (.xbyte byte offset length) :=
  field8_formatX_24 _ _ _ _

theorem xbyteD (byte : Byte) (offset : Int) : Statement (.xbyteD byte offset) := field8_formatX_24 _ _ _ _

theorem rdbits (bitOffset bitLength : Int) : Statement (.rdbits bitOffset bitLength) := field8_formatR_24 _ _ _

theorem rdbitsL (bitOffset bitLength : Int) : Statement (.rdbitsL bitOffset bitLength) := field8_formatR_24 _ _ _

theorem unpack (bits bitOffset : Int) : Statement (.unpack bits bitOffset) := field8_formatR_24 _ _ _

theorem crock : Statement .crock := field8_formatR_24 _ _ _

end Sys2Proof.Laws.TopByte
end

