-- ==== Sys2Proof/Machine/Script.lean ====
section
/-! DEFINITION. The host script notation of spec/30_encoding.md R94: each line as the events it stands for. -/

namespace Sys2Proof.Machine

/-- One line of a host script (R94). -/
inductive ScriptLine where
  /-- RESET. -/
  | resetLine
  /-- WRB i, v. -/
  | wrb (i : Nat) (v : Byte)
  /-- WRLEN n. -/
  | wrlen (n : Word)
  /-- A mnemonic with its operands. -/
  | command (i : Instr)
  /-- WRCMD w. -/
  | wrcmd (w : Word)
  /-- WAIT. -/
  | wait
  /-- RDRES: RESULT_HI, then RESULT_LO. -/
  | rdres
  /-- RDLEN. -/
  | rdlen
  /-- RDOUT j. -/
  | rdout (j : Nat)
  /-- RDST. -/
  | rdst
deriving DecidableEq, Repr

/-- The host actions of a line (R94). -/
def ScriptLine.events : ScriptLine → List Event
  | .resetLine => [.host .reset]
  | .wrb i v => [.host (.writeBuf i v)]
  | .wrlen n => [.host (.writeReg 2 n)]
  | .command i => [.host (.writeReg 0 (encode i))]
  | .wrcmd w => [.host (.writeReg 0 w)]
  | .wait => [.wait]
  | .rdres => [.host (.readReg 4), .host (.readReg 3)]
  | .rdlen => [.host (.readReg 5)]
  | .rdout j => [.host (.readOut j)]
  | .rdst => [.host (.readReg 1)]

/-- A host program placed before the machine: its lines are the events to come (log entry 6). -/
def State.withScript (s : State) (script : List ScriptLine) : State :=
  { s with inputs := script.flatMap ScriptLine.events }

end Sys2Proof.Machine
end

