-- ==== Sys2Proof/Tests/Slice0.lean ====
section
/-! SUPPORT. Tests of the model on values of spec/95_test_vectors.md and of the rules' own worked examples, the smoke test
of WellFormed, and for every obligation with hypotheses a witness that meets them together. -/

namespace Sys2Proof.Tests

open Sys2Proof.Machine

/-! ## Helpers -/

/-- Bytes written one by one from an index on. -/
def fill : Nat → List Byte → Memory → Memory
  | _, [], m => m
  | a, v :: rest, m => fill (a + 1) rest (Memory.write m a v)

/-- The idle block after reset with the given input bytes and their number in LEN. -/
def input (bytes : List Byte) : State :=
  { State.reset with buf := fill 0 bytes [], len := BitVec.ofNat 32 bytes.length }

/-- The buffers of spec/95_test_vectors.md section 4. -/
def bufA : State := input [0x12#8, 0x34#8, 0x56#8, 0x78#8, 0x9A#8, 0xBC#8, 0xDE#8, 0xF0#8]
def bufB : State := input [0xAB#8, 0xCD#8]
def bufF : State := input [0xFF#8, 0xFF#8, 0xFF#8, 0xFF#8, 0xFF#8, 0xFF#8, 0xFF#8, 0xFF#8]
def bufS : State := input [0xA5#8]

/-- The known vector of spec/95_test_vectors.md section 1.6. -/
def bufK : State := input
  ([0x01#8, 0x9A#8, 0x7C#8, 0xEB#8, 0xCC#8, 0xEA#8, 0x0C#8, 0x7C#8, 0xCC#8, 0xFF#8, 0x8F#8] ++
    [0xAF#8, 0x6A#8, 0xA8#8, 0x68#8, 0x6D#8, 0xA3#8, 0xEF#8, 0x0D#8, 0x15#8, 0x21#8])

/-- An identifier with timestamp `ts` (below 256) and every random byte `r`. -/
def identifier (ts r : Byte) : State := input (List.replicate 5 0#8 ++ [ts] ++ List.replicate 15 r)

/-- An identifier whose 21 bytes are all `r`. -/
def uniform (r : Byte) : State := input (List.replicate 21 r)

/-- LEN = 33 with NBYTES_MAX = 32. -/
def overCapacity : State := { State.reset with len := 33#32 }

/-- A block with a command in flight whose turn it is. -/
def inFlight (w : Word) (s : State) : State := { s with cmd := w, status := 0x1#32, inputs := [.block] }

/-- The host's action comes next. -/
def hostNext (a : HostAction) (s : State) : State := { s with inputs := [.host a] }

/-- A completed RDBITS 0, 48 on the known vector. -/
def scalarDone : State := { bufK with cmd := 0x20300000#32, status := 0x12#32, result := 1763032419562#53 }

/-- A completed UNPACK 5, -5 on [0xFF]. -/
def sequenceDone : State :=
  { input [0xFF#8] with
    cmd := 0x3005FFFB#32, status := 0x22#32, out := [(0, 0#8), (1, 31#8), (2, 28#8)], outLen := 3#32 }

/-- The next state, if there is one. -/
def after : Host.Outcome State Fault Refusal → Option State
  | .next t => some t
  | .fault _ => none
  | .refused _ => none

theorem next_of_after {o : Host.Outcome State Fault Refusal} {t : State} (h : after o = some t) : o = .next t := by
  cases o with
  | next u => simpa [after] using h
  | fault f => cases h
  | refused r => cases h

/-- RESULT and STATUS after. -/
def scalarOf (o : Host.Outcome State Fault Refusal) : Option (Nat × Word) :=
  (after o).map fun t => (t.result.toNat, t.status)

/-- The readable output bytes and STATUS after. -/
def sequenceOf (o : Host.Outcome State Fault Refusal) : Option (List (Option Byte) × Word) :=
  (after o).map fun t => (t.outSequence, t.status)

/-- STATUS after. -/
def statusOf (o : Host.Outcome State Fault Refusal) : Option Word := (after o).map State.status

/-- The replies after `k` steps of a host program from `s`. -/
def repliesOf (k : Nat) (s : State) : Option (List Reply) := (after (Host.Core.run Sys2Proof.core k s)).map State.replies

/-! ## WellFormed: one ill-formed operand for each check (ranges of spec/30_encoding.md R84) -/

theorem test_wf_xbyte_offset : (Instr.xbyte 0x00#8 128 0).wellFormed = false := by decide
theorem test_wf_xbyte_offset_low : (Instr.xbyte 0x00#8 (-129) 0).wellFormed = false := by decide
theorem test_wf_xbyte_length : (Instr.xbyte 0x00#8 0 128).wellFormed = false := by decide
theorem test_wf_xbyte_length_low : (Instr.xbyte 0x00#8 0 (-129)).wellFormed = false := by decide
theorem test_wf_xbyteD_offset : (Instr.xbyteD 0x00#8 128).wellFormed = false := by decide
theorem test_wf_xbyteD_offset_low : (Instr.xbyteD 0x00#8 (-129)).wellFormed = false := by decide
theorem test_wf_rdbits_offset : (Instr.rdbits 32768 0).wellFormed = false := by decide
theorem test_wf_rdbits_offset_low : (Instr.rdbits (-32769) 0).wellFormed = false := by decide
theorem test_wf_rdbits_length : (Instr.rdbits 0 128).wellFormed = false := by decide
theorem test_wf_rdbits_length_low : (Instr.rdbits 0 (-129)).wellFormed = false := by decide
theorem test_wf_rdbitsL_offset : (Instr.rdbitsL (-32769) 0).wellFormed = false := by decide
theorem test_wf_rdbitsL_length : (Instr.rdbitsL 0 128).wellFormed = false := by decide
theorem test_wf_unpack_bits : (Instr.unpack 128 0).wellFormed = false := by decide
theorem test_wf_unpack_offset : (Instr.unpack 0 32768).wellFormed = false := by decide
theorem test_wf_accepts_the_ends :
    (Instr.xbyte 0xFF#8 127 (-128)).wellFormed = true ∧ (Instr.rdbits (-32768) 127).wellFormed = true ∧
    (Instr.unpack (-128) 32767).wellFormed = true := by decide

/-! ## Decode: words of spec/95_test_vectors.md section 2, bit by bit as OP L DL 00 | byte or N | N | OFF -/

theorem test_decode_xbyte :
    decode (0b0001#4 ++ 0b0000#4 ++ 0b10100101#8 ++ 0b11111111#8 ++ 0b00000000#8) = .ok (.xbyte 0xA5#8 0 (-1)) := by decide
theorem test_decode_xbyteD :
    decode (0b0001#4 ++ 0b0100#4 ++ 0b10100101#8 ++ 0b00000000#8 ++ 0b00000011#8) = .ok (.xbyteD 0xA5#8 3) := by decide
theorem test_decode_rdbits :
    decode (0b0010#4 ++ 0b0000#4 ++ 0b00001000#8 ++ 0b1111111111111000#16) = .ok (.rdbits (-8) 8) := by decide
theorem test_decode_rdbitsL :
    decode (0b0010#4 ++ 0b1000#4 ++ 0b00001000#8 ++ 0b1111111111111100#16) = .ok (.rdbitsL (-4) 8) := by decide
theorem test_decode_unpack :
    decode (0b0011#4 ++ 0b0000#4 ++ 0b00000101#8 ++ 0b1111111111111110#16) = .ok (.unpack 5 (-2)) := by decide
theorem test_decode_crock :
    decode (0b0100#4 ++ 0b0000#4 ++ 0b00000000#8 ++ 0b0000000000000000#16) = .ok .crock := by decide
theorem test_decode_rdbits_ends :
    decode 0x207F7FFF#32 = .ok (.rdbits 32767 127) ∧ decode 0x20808000#32 = .ok (.rdbits (-32768) (-128)) := by decide
theorem test_decode_illegal_format_x :
    decode 0x14A50103#32 = .error .illegalCmd ∧ decode 0x18A50003#32 = .error .illegalCmd ∧
    decode 0x1CA50003#32 = .error .illegalCmd ∧ decode 0x11E00300#32 = .error .illegalCmd ∧
    decode 0x12E00300#32 = .error .illegalCmd := by decide
theorem test_decode_illegal_format_r :
    decode 0x24080004#32 = .error .illegalCmd ∧ decode 0x2C080004#32 = .error .illegalCmd ∧
    decode 0x38050000#32 = .error .illegalCmd ∧ decode 0x34050000#32 = .error .illegalCmd ∧
    decode 0x40000001#32 = .error .illegalCmd ∧ decode 0x40010000#32 = .error .illegalCmd := by decide
theorem test_decode_illegal_op :
    decode 0x00000000#32 = .error .illegalCmd ∧ decode 0x50000000#32 = .error .illegalCmd ∧
    decode 0xF0000000#32 = .error .illegalCmd ∧ decode 0xFFFFFFFF#32 = .error .illegalCmd := by decide

/-- The two pseudo-instructions of spec/30_encoding.md R93 are words of core commands. -/
theorem test_encode_pseudo :
    encode (.unpackNoOffset 5) = 0x30050000#32 ∧ encode (.xbyteNoLength 0xA5#8 3) = 0x14A50003#32 := by decide

/-- spec/opcode_table.json gives every row 32 bits. -/
theorem test_decode_table_word :
    decodeTableWord 32 0x30010000 = some (.unpack 1 0) ∧ decodeTableWord 32 0x14010101 = none := by decide

/-! ## Commands: expected values from spec/95_test_vectors.md sections 3 to 5 -/

theorem test_xbyte : scalarOf (exec (.xbyte 0xA5#8 2 3) State.reset) = some (4, 0x12#32) := by decide
theorem test_xbyteD : scalarOf (exec (.xbyteD 0xA5#8 3) State.reset) = some (5, 0x12#32) := by decide
theorem test_xbyteD_offset : statusOf (exec (.xbyteD 0xA5#8 8) State.reset) = some 0x306#32 := by decide
theorem test_rdbits : scalarOf (exec (.rdbits 5 53) bufA) = some (2481983794639739, 0x12#32) := by decide
theorem test_rdbitsL : scalarOf (exec (.rdbitsL 12 8) bufB) = some (0xD0, 0x12#32) := by decide
theorem test_rdbitsL_before_start : scalarOf (exec (.rdbitsL (-8) 16) bufA) = some (0x12, 0x12#32) := by decide
theorem test_unpack : sequenceOf (exec (.unpack 2 (-3)) bufB) =
    some ([0#8, 1#8, 1#8, 1#8, 1#8, 3#8, 2#8, 1#8, 2#8, 2#8].map some, 0x22#32) := by decide
theorem test_crock : sequenceOf (exec .crock bufK) = some
    (([0x30#8, 0x31#8, 0x4B#8, 0x39#8, 0x59#8, 0x45#8, 0x51#8, 0x4B#8, 0x37#8, 0x41#8, 0x31#8, 0x48#8] ++
      [0x59#8, 0x43#8, 0x53#8, 0x5A#8, 0x57#8, 0x46#8, 0x4E#8, 0x58#8, 0x4E#8, 0x41#8, 0x47#8, 0x54#8] ++
      [0x33#8, 0x44#8, 0x4D#8, 0x46#8, 0x51#8, 0x47#8, 0x54#8, 0x35#8, 0x39#8, 0x31#8]).map some, 0x22#32) := by decide
theorem test_crock_length : statusOf (exec .crock bufA) = some 0x906#32 := by decide

/-- The byte-wise algorithm's trace in spec/95_test_vectors.md section 4. -/
theorem test_algorithm : readBitsAlg (memRead bufA) 5 53 = 2481983794639739 := by decide

/-! ## The host's side: rows of spec/95_test_vectors.md section 6 -/

theorem test_illegal_completes : statusOf (step (inFlight 0xF0000000#32 bufA)) = some 0x106#32 := by decide
theorem test_fetch_word : sequenceOf (step (State.reset.withFetchWord 32 0x3005FFFE)) = some ([some 0#8], 0x22#32) := by decide
theorem test_write_while_busy :
    step (hostNext (.writeReg 2 0#32) { bufA with status := 0x1#32 }) = .fault .hostWriteWhileBusy := rfl
theorem test_read_while_busy :
    step (hostNext (.readReg 0) { bufA with status := 0x1#32 }) = .fault .hostReadWhileBusy := rfl
theorem test_out_of_range :
    step (hostNext (.readReg 6) State.reset) = .refused .noSuchRegister ∧
    step (hostNext (.readBuf 32) State.reset) = .refused .noSuchBufIndex ∧
    step (hostNext (.writeOut 512 0#8) State.reset) = .refused .noSuchOutIndex := ⟨rfl, rfl, rfl⟩
theorem test_write_read_only : after (step (hostNext (.writeReg 1 0xDEADBEEF#32) scalarDone)) = some scalarDone := by decide
theorem test_result_registers :
    repliesOf 2 { scalarDone with inputs := ScriptLine.rdres.events } =
      some [.word 0x7CEBCCEA#32, .word 0x0000019A#32] := by decide

/-- The first lines of program P2 and the events they stand for (spec/30_encoding.md R94). -/
theorem test_script :
    (bufA.withScript [.resetLine, .wrb 0 0xFF#8, .wrlen 1#32, .command (.unpack 5 (-5)), .wait, .rdst]).inputs =
      [.host .reset, .host (.writeBuf 0 0xFF#8), .host (.writeReg 2 1#32), .host (.writeReg 0 0x3005FFFB#32), .wait,
        .host (.readReg 1)] := by decide

/-! ## States that meet the invariant -/

theorem inv_bufA : bufA.Inv where
  cfg := by decide
  bufWf := by decide
  bufBelow := by decide
  outRising := by decide
  outBelow := by decide
  status := by decide
  scalar := by decide
  sequence := by decide
  outLen := by decide
  outListed := by decide

theorem inv_scalarDone : scalarDone.Inv where
  cfg := by decide
  bufWf := by decide
  bufBelow := by decide
  outRising := by decide
  outBelow := by decide
  status := by decide
  scalar := by decide
  sequence := by decide
  outLen := by decide
  outListed := by decide

theorem inv_sequenceDone : sequenceDone.Inv where
  cfg := by decide
  bufWf := by decide
  bufBelow := by decide
  outRising := by decide
  outBelow := by decide
  status := by decide
  scalar := by decide
  sequence := by decide
  outLen := by decide
  outListed := by decide

theorem inv_inFlight : (inFlight 0x30010000#32 bufA).Inv where
  cfg := by decide
  bufWf := by decide
  bufBelow := by decide
  outRising := by decide
  outBelow := by decide
  status := by decide
  scalar := by decide
  sequence := by decide
  outLen := by decide
  outListed := by decide


/-! ## Whose turn it is, in the helpers' states -/

theorem hostNext_moves (a : HostAction) (s : State) : HostMoves a (hostNext a s) { s with inputs := [] } := ⟨[], rfl, rfl⟩

theorem inFlight_moves (w : Word) (s : State) : BlockMoves (inFlight w s) { inFlight w s with inputs := [] } :=
  .inr ⟨[], rfl, rfl⟩

/-! ## Witnesses: command words -/

theorem witness_RowsSelectByMaskAndMatch :
    0x10FF80FF#32 &&& 0xFF000000#32 = 0x10000000#32 ∧ 0x14A50080#32 &&& 0xFF00FF00#32 = 0x14000000#32 ∧
    0x20808000#32 &&& 0xFF000000#32 = 0x20000000#32 ∧ 0x287F7FFF#32 &&& 0xFF000000#32 = 0x28000000#32 ∧
    0x30FFFFFF#32 &&& 0xFF000000#32 = 0x30000000#32 ∧ 0x40000000#32 &&& 0xFFFFFFFF#32 = 0x40000000#32 := by decide

theorem witness_RowsSelectByMaskAndMatch_none :
    0x14A50103#32 &&& 0xFF000000#32 ≠ 0x10000000#32 ∧ 0x14A50103#32 &&& 0xFF00FF00#32 ≠ 0x14000000#32 ∧
    0x14A50103#32 &&& 0xFF000000#32 ≠ 0x20000000#32 ∧ 0x14A50103#32 &&& 0xFF000000#32 ≠ 0x28000000#32 ∧
    0x14A50103#32 &&& 0xFF000000#32 ≠ 0x30000000#32 ∧ 0x14A50103#32 &&& 0xFFFFFFFF#32 ≠ 0x40000000#32 := by decide

theorem witness_DecodeAndEncodeAreInverse :
    decode 0x20808000#32 = .ok (.rdbits (-32768) (-128)) ∧ (Instr.rdbits (-32768) (-128)).wellFormed = true ∧
    (Instr.xbyte 0xFF#8 127 (-128)).wellFormed = true := by decide

theorem witness_IllegalWordsAreThoseListed_issue :
    decode 0x50000000#32 = .error .illegalCmd ∧ (hostNext (.writeReg 0 0x50000000#32) bufA).busy = false ∧
    HostMoves (.writeReg 0 0x50000000#32) (hostNext (.writeReg 0 0x50000000#32) bufA) { bufA with inputs := [] } :=
  ⟨by decide, by decide, hostNext_moves _ _⟩

theorem witness_IllegalWordsAreThoseListed_completion :
    decode (inFlight 0x50000000#32 bufA).cmd = .error .illegalCmd ∧ (inFlight 0x50000000#32 bufA).busy = true ∧
    BlockMoves (inFlight 0x50000000#32 bufA) { inFlight 0x50000000#32 bufA with inputs := [] } :=
  ⟨by decide, by decide, inFlight_moves _ _⟩

/-! ## Witnesses: a step -/

theorem witness_StepRunsDecodedCommand :
    BlockMoves (inFlight 0x30010000#32 bufA) { inFlight 0x30010000#32 bufA with inputs := [] } ∧
    (inFlight 0x30010000#32 bufA).busy = true ∧ decode (inFlight 0x30010000#32 bufA).cmd = .ok (.unpack 1 0) :=
  ⟨inFlight_moves _ _, by decide, by decide⟩

/-- The block moves with no event left as well. -/
theorem witness_StepRunsDecodedCommand_silent :
    BlockMoves { bufA with cmd := 0x30010000#32, status := 0x1#32 } { bufA with cmd := 0x30010000#32, status := 0x1#32 } ∧
    ({ bufA with cmd := 0x30010000#32, status := 0x1#32 } : State).busy = true :=
  ⟨.inl ⟨rfl, rfl⟩, by decide⟩

theorem witness_FetchedWordRuns :
    0x3005FFFB < 2 ^ 32 ∧ decodeTableWord 32 0x3005FFFB = some (.unpack 5 (-5)) := by decide

theorem witness_IdleBlockDoesNothing : BlockMoves bufA bufA ∧ bufA.busy = false := ⟨.inl ⟨rfl, rfl⟩, by decide⟩

theorem witness_BusyBlockCompletesAtItsTurn :
    BlockMoves (inFlight 0xFFFFFFFF#32 bufA) { inFlight 0xFFFFFFFF#32 bufA with inputs := [] } ∧
    (inFlight 0xFFFFFFFF#32 bufA).busy = true := ⟨inFlight_moves _ _, by decide⟩

theorem witness_WaitEndsWithDone :
    ({ bufA with cmd := 0x30010000#32, status := 0x1#32, inputs := [.wait, .block] } : State).inputs = [.wait, .block] ∧
    ({ bufA with cmd := 0x30010000#32, status := 0x1#32, inputs := [.wait, .block] } : State).busy = true ∧
    Status.done 0x1#32 = false := by decide

/-! ## Witnesses: reset and the invariants -/

theorem witness_ResetAbandonsTheCommand :
    HostMoves .reset (hostNext .reset (inFlight 0x40000000#32 bufA))
      { inFlight 0x40000000#32 bufA with inputs := [] } := hostNext_moves _ _

theorem witness_ResetAbandonsTheCommand_only :
    ∃ t, (hostNext .reset (inFlight 0x40000000#32 bufA)).busy = true ∧
      step (hostNext .reset (inFlight 0x40000000#32 bufA)) = .next t ∧ t.busy = false ∧
      Status.done t.status = false := ⟨State.reset, by decide, next_of_after (by decide), by decide, by decide⟩

theorem witness_InvariantHoldsAfterReset :
    Config.Wf { nbytesMax := 21, noutMax := 34 } ∧ Config.Wf { nbytesMax := 32768, noutMax := 4294967295 } := by decide

theorem witness_EveryStepKeepsTheInvariant :
    (inFlight 0x30010000#32 bufA).Inv ∧ ∃ t, step (inFlight 0x30010000#32 bufA) = .next t :=
  ⟨inv_inFlight, _, rfl⟩

theorem witness_StatusFieldsObeyTheirRules :
    Status.Rules scalarDone.status ∧ step scalarDone = .next scalarDone :=
  ⟨⟨by decide, by decide, by decide, by decide, by decide⟩, rfl⟩

theorem witness_StatusChangesOnlyAtIssueAndCompletion_issue :
    ∃ t, step (hostNext (.writeReg 0 0x40000000#32) scalarDone) = .next t ∧ t.status ≠ scalarDone.status :=
  ⟨{ scalarDone with cmd := 0x40000000#32, status := 0x1#32 }, next_of_after (by decide), by decide⟩

theorem witness_StatusChangesOnlyAtIssueAndCompletion_completion :
    ∃ t, step (inFlight 0x40000000#32 bufA) = .next t ∧ t.status ≠ (inFlight 0x40000000#32 bufA).status :=
  ⟨{ bufA with cmd := 0x40000000#32, status := 0x906#32 }, next_of_after (by decide), by decide⟩

theorem witness_StatusChangesOnlyAtIssueAndCompletion_reset :
    ∃ t, step (hostNext .reset scalarDone) = .next t ∧ t.status ≠ scalarDone.status :=
  ⟨State.reset, next_of_after (by decide), by decide⟩

theorem witness_StatusChangesOnlyAtIssueAndCompletion_values :
    scalarDone.status ∈ Status.reachable ∧ step scalarDone = .next scalarDone := ⟨by decide, rfl⟩

theorem witness_StatusChangesOnlyAtIssueAndCompletion_becomes :
    (HostMoves (.writeReg 0 0#32) (hostNext (.writeReg 0 0#32) bufA) { bufA with inputs := [] } ∧
      (hostNext (.writeReg 0 0#32) bufA).busy = false) ∧
    (BlockMoves (inFlight 0x40000000#32 bufA) { inFlight 0x40000000#32 bufA with inputs := [] } ∧
      (inFlight 0x40000000#32 bufA).busy = true ∧ decode (inFlight 0x40000000#32 bufA).cmd = .ok .crock) :=
  ⟨⟨hostNext_moves _ _, by decide⟩, inFlight_moves _ _, by decide, by decide⟩

theorem witness_CapacitiesNeverChange : step scalarDone = .next scalarDone := rfl

theorem witness_ControlStateTransitions_issue :
    ∃ t, (hostNext (.writeReg 0 0#32) scalarDone).status ∈ Status.reachable ∧
      step (hostNext (.writeReg 0 0#32) scalarDone) = .next t ∧ scalarDone.busy = false ∧ t.busy = true ∧
      Status.done scalarDone.status = true ∧ Status.done t.status = false :=
  ⟨{ scalarDone with cmd := 0#32, status := 0x1#32 }, by decide, next_of_after (by decide), by decide, by decide,
    by decide, by decide⟩

theorem witness_ControlStateTransitions_completion :
    ∃ t, (inFlight 0x40000000#32 bufA).status ∈ Status.reachable ∧ step (inFlight 0x40000000#32 bufA) = .next t ∧
      (inFlight 0x40000000#32 bufA).busy = true ∧ t.busy = false ∧
      Status.done (inFlight 0x40000000#32 bufA).status = false ∧ Status.done t.status = true :=
  ⟨{ bufA with cmd := 0x40000000#32, status := 0x906#32 }, by decide, next_of_after (by decide), by decide, by decide,
    by decide, by decide⟩

/-! ## Witnesses: effects and frames -/

theorem witness_EffectsOfEveryCommand_error :
    ∃ t, exec .crock bufA = .next t ∧ Status.err t.status = true ∧ scalarCommand .crock = false :=
  ⟨{ bufA with status := 0x906#32 }, next_of_after (by decide), by decide, by decide⟩

theorem witness_EffectsOfEveryCommand_scalar :
    ∃ t, exec (.rdbits 0 48) bufK = .next t ∧ scalarCommand (.rdbits 0 48) = true ∧ Status.err t.status = false :=
  ⟨{ bufK with status := 0x12#32, result := 1763032419562#53 }, next_of_after (by decide), by decide, by decide⟩

theorem witness_SameCommandSameOutcome_scalar :
    ∃ t v, scalarDone.cfg = bufK.cfg ∧ scalarDone.len = bufK.len ∧ scalarDone.buf = bufK.buf ∧
      exec (.rdbits 0 48) bufK = .next t ∧ exec (.rdbits 0 48) scalarDone = .next v ∧ Status.rk t.status = 1#2 :=
  ⟨{ bufK with status := 0x12#32, result := 1763032419562#53 }, scalarDone, by decide, by decide, by decide,
    next_of_after (by decide), next_of_after (by decide), by decide⟩

theorem witness_SameCommandSameOutcome_sequence :
    ∃ t v, sequenceDone.cfg = (input [0xFF#8]).cfg ∧ sequenceDone.len = (input [0xFF#8]).len ∧
      sequenceDone.buf = (input [0xFF#8]).buf ∧ exec (.unpack 5 (-5)) (input [0xFF#8]) = .next t ∧
      exec (.unpack 5 (-5)) sequenceDone = .next v ∧ Status.rk t.status = 2#2 :=
  ⟨{ sequenceDone with cmd := 0#32 }, sequenceDone, by decide, by decide, by decide,
    next_of_after (by decide), next_of_after (by decide), by decide⟩

/-- The two buffers differ at index LEN, the first byte no command reads. -/
theorem witness_BytesFromLenOnAreNeverRead :
    ∃ t v, (∀ a, a < bufS.len.toNat →
        Memory.read ({ bufS with buf := [(0, 0xA5#8), (1, 0xFF#8)] } : State).buf a = Memory.read bufS.buf a) ∧
      exec (.rdbitsL 7 2) bufS = .next t ∧
      exec (.rdbitsL 7 2) { bufS with buf := [(0, 0xA5#8), (1, 0xFF#8)] } = .next v ∧ Status.rk t.status = 1#2 :=
  ⟨{ bufS with status := 0x12#32, result := 2#53 },
    { bufS with buf := [(0, 0xA5#8), (1, 0xFF#8)], status := 0x12#32, result := 2#53 }, by decide,
    next_of_after (by decide), next_of_after (by decide), by decide⟩

theorem witness_ErrorEntryChangesOnlyStatus :
    ∃ t, exec (.unpack 8 24) bufB = .next t ∧ Status.err t.status = true :=
  ⟨{ bufB with status := 0x806#32 }, next_of_after (by decide), by decide⟩

theorem witness_CausesOfEachCommand :
    ∃ t, exec (.xbyteD 0xA5#8 8) bufB = .next t ∧ Status.err t.status = true :=
  ⟨{ bufB with status := 0x306#32 }, next_of_after (by decide), by decide⟩

theorem witness_CausesOfEachCommand_illegal :
    ∃ t, decode (inFlight 0#32 bufB).cmd = .error .illegalCmd ∧ (inFlight 0#32 bufB).busy = true ∧
      BlockMoves (inFlight 0#32 bufB) { inFlight 0#32 bufB with inputs := [] } ∧ step (inFlight 0#32 bufB) = .next t :=
  ⟨{ bufB with cmd := 0#32, status := 0x106#32 }, by decide, by decide, inFlight_moves _ _, next_of_after (by decide)⟩

theorem witness_LenAboveCapacity :
    ∃ t u, overCapacity.cfg.nbytesMax < overCapacity.len.toNat ∧ exec (.xbyte 0xA5#8 7 1) overCapacity = .next t ∧
      exec (.xbyteD 0xA5#8 7) overCapacity = .next u :=
  ⟨{ overCapacity with status := 0x12#32, result := 1#53 }, { overCapacity with status := 0x12#32, result := 1#53 },
    by decide, next_of_after (by decide), next_of_after (by decide)⟩

/-! ## Witnesses: the single-byte extractor, at the ends of its ranges -/

theorem witness_XbyteFollowsItsRule :
    ((-1 : Int) < 0 ∧ (8 : Int) > 7) ∧
    ((0 : Int) ≤ 7 ∧ (7 : Int) ≤ 7 ∧ (-1 : Int) < 0) ∧
    ((0 : Int) ≤ 7 ∧ (7 : Int) ≤ 7 ∧ (0 : Int) ≤ 2 ∧ (7 : Int) + 2 > 8) ∧
    ((0 : Int) ≤ 7 ∧ (7 : Int) ≤ 7 ∧ (0 : Int) ≤ 1 ∧ (7 : Int) + 1 ≤ 8) := by decide

theorem test_xbyte_limits :
    [(-1, -1), (8, 0), (7, -1), (7, 2), (7, 1)].map (fun p => statusOf (exec (.xbyte 0xA5#8 p.1 p.2) State.reset)) =
      [some 0x306#32, some 0x306#32, some 0x206#32, some 0x406#32, some 0x12#32] := by decide

theorem witness_XbyteDFollowsItsRule :
    ((-1 : Int) < 0 ∧ (8 : Int) > 7) ∧ ((0 : Int) ≤ 7 ∧ (7 : Int) ≤ 7) ∧ ((0 : Int) ≤ 0 ∧ (0 : Int) ≤ 7) := by decide

theorem witness_XbyteIsTheSumOfItsBits :
    (7 ≤ 7 ∧ 7 + 1 ≤ 8) ∧ (0 ≤ 7 ∧ 0 + 8 ≤ 8) ∧ (7 ≤ 7 ∧ 7 + 0 ≤ 8) := by decide

theorem witness_XbyteLaws :
    (7 ≤ 7 ∧ 7 + 1 ≤ 8) ∧ (6 ≤ 7 ∧ 6 + 1 + 1 ≤ 8 ∧ 6 + 1 ≤ 7) ∧ (7 ≤ 7 ∧ 7 + 1 + 0 ≤ 8) := by decide

theorem witness_XbyteAgreesWithTheReader :
    bufS.cfg.Wf ∧ bufS.len = 1#32 ∧ Memory.read bufS.buf 0 = 0xA5#8 := by decide

/-- One offset and length for each clause. -/
theorem witness_XbyteAgreesWithTheReader_clauses :
    ((0 : Int) ≤ 7 ∧ (7 : Int) ≤ 7 ∧ (0 : Int) ≤ 1 ∧ (7 : Int) + 1 ≤ 8) ∧
    ((0 : Int) ≤ 0 ∧ (0 : Int) ≤ 7 ∧ (0 : Int) ≤ 53 ∧ (53 : Int) ≤ 53 ∧ (0 : Int) + 53 > 8) ∧
    ((8 : Int) ≤ 8 ∧ (0 : Int) ≤ 1 ∧ (1 : Int) ≤ 53 ∧ ((1 : Int) ≤ 1 ∨ (8 : Int) < 8)) ∧
    ((8 : Int) = 8 ∧ (0 : Int) = 0) ∧
    ((-1 : Int) < 0 ∧ (0 : Int) ≤ 53 ∧ (53 : Int) ≤ 53) ∧ ((-1 : Int) < 0 ∧ (54 : Int) > 53) ∧
    ((0 : Int) ≤ 7 ∧ (7 : Int) ≤ 7 ∧ (-1 : Int) < 0) ∧ ((0 : Int) ≤ 0 ∧ (0 : Int) ≤ 7 ∧ (54 : Int) > 53) := by decide

theorem witness_XbyteAgreesWithTheReader_errors :
    ∃ t u, exec (.xbyte 0xA5#8 8 1) bufS = .next t ∧ exec (.rdbits 8 1) bufS = .next u ∧
      ¬((8 : Int) = 8 ∧ (1 : Int) = 0) :=
  ⟨{ bufS with status := 0x306#32 }, { bufS with status := 0x506#32 }, next_of_after (by decide),
    next_of_after (by decide), by decide⟩

/-! ## Witnesses: the bit reader -/

theorem witness_RdbitsFollowsItsRule :
    overCapacity.cfg.nbytesMax < overCapacity.len.toNat ∧ bufA.len.toNat ≤ bufA.cfg.nbytesMax ∧
    ((54 : Int) < 0 ∨ (54 : Int) > 53) ∧ ((0 : Int) ≤ 53 ∧ (53 : Int) ≤ 53 ∧ (-1 : Int) < 0) ∧
    ((0 : Int) ≤ 12 ∧ (12 : Int) + 53 > 8 * (bufA.len.toNat : Int)) ∧
    ((0 : Int) ≤ 11 ∧ (11 : Int) + 53 ≤ 8 * (bufA.len.toNat : Int)) := by decide

theorem test_rdbits_limits :
    [(0, 54), (-1, 53), (12, 53), (11, 53)].map (fun p => statusOf (exec (.rdbits p.1 p.2) bufA)) =
      [some 0x206#32, some 0x606#32, some 0x506#32, some 0x12#32] := by decide

theorem witness_RdbitsLFollowsItsRule :
    overCapacity.cfg.nbytesMax < overCapacity.len.toNat ∧ bufA.len.toNat ≤ bufA.cfg.nbytesMax ∧
    ((-1 : Int) < 0 ∨ (-1 : Int) > 53) ∧ ((0 : Int) ≤ 53 ∧ (53 : Int) ≤ 53) := by decide

theorem witness_StrictReadStaysInside :
    ∃ t, exec (.rdbits 11 53) bufA = .next t ∧ Status.err t.status = false ∧ 52 < (53 : Int).toNat :=
  ⟨{ bufA with status := 0x12#32, result := 5724575526346480#53 }, next_of_after (by decide), by decide, by decide⟩

theorem witness_StrictAndLooseReadsAgree_success :
    ∃ t, exec (.rdbits 4 12) bufB = .next t ∧ Status.err t.status = false :=
  ⟨{ bufB with status := 0x12#32, result := 3021#53 }, next_of_after (by decide), by decide⟩

theorem witness_StrictAndLooseReadsAgree_negative :
    ∃ t, exec (.rdbits (-1) 1) bufB = .next t ∧ (t.status = 0x606#32 ∨ t.status = 0x506#32) :=
  ⟨{ bufB with status := 0x606#32 }, next_of_after (by decide), by decide⟩

theorem witness_StrictAndLooseReadsAgree_past_end :
    ∃ t, exec (.rdbits 12 8) bufB = .next t ∧ (t.status = 0x606#32 ∨ t.status = 0x506#32) :=
  ⟨{ bufB with status := 0x506#32 }, next_of_after (by decide), by decide⟩

theorem witness_AlgorithmComputesTheDefinition : 53 ≤ 53 := by decide

theorem witness_ResultFitsItsRegister :
    ∃ t, exec (.rdbits 3 53) bufF = .next t ∧ Status.err t.status = false ∧
      ∀ k : Nat, k < 53 → bitAt (memRead bufF) (3 + k) = 1 :=
  ⟨{ bufF with status := 0x12#32, result := 9007199254740991#53 }, next_of_after (by decide), by decide, by decide⟩

theorem witness_ResultFitsItsRegister_loose :
    ∃ t, exec (.rdbitsL 3 53) bufF = .next t ∧ Status.err t.status = false ∧
      ∀ k : Nat, k < 53 → bitAt (memReadLoose bufF) (3 + k) = 1 :=
  ⟨{ bufF with status := 0x12#32, result := 9007199254740991#53 }, next_of_after (by decide), by decide, by decide⟩

/-- Leading zeros, trailing zeros, wholly outside before and after. -/
theorem witness_ReaderLaws :
    ((-8 : Int) < 0 ∧ -(-8 : Int) ≤ (8 : Nat)) ∧
    ((0 : Int) ≤ 16 ∧ (16 : Int) ≤ 8 * (bufB.len.toNat : Int) ∧ 8 * (bufB.len.toNat : Int) ≤ (16 : Int) + (0 : Nat)) ∧
    (-(8 : Int) + (8 : Nat) ≤ 0 ∨ 8 * (bufB.len.toNat : Int) ≤ -(8 : Int)) ∧
    ((16 : Int) + (1 : Nat) ≤ 0 ∨ 8 * (bufB.len.toNat : Int) ≤ 16) := by decide

/-- Buffers that agree on the one covered byte and differ elsewhere. -/
theorem witness_ReaderLaws_covered :
    ({ bufB with buf := [(0, 0xAB#8)] } : State).len = bufB.len ∧
    ∀ i : Nat, (0 : Int) / 8 ≤ (i : Int) → (i : Int) ≤ ((0 : Int) + (8 : Nat) - 1) / 8 → i < bufB.len.toNat →
      Memory.read ({ bufB with buf := [(0, 0xAB#8)] } : State).buf i = Memory.read bufB.buf i := by
  refine ⟨rfl, fun i _ h _ => ?_⟩
  obtain rfl : i = 0 := by omega
  decide

theorem witness_ZeroBitReadsReturnZero :
    bufB.len.toNat ≤ bufB.cfg.nbytesMax ∧ ((0 : Int) ≤ 16 ∧ (16 : Int) ≤ 8 * (bufB.len.toNat : Int)) ∧
    ((17 : Int) < 0 ∨ (17 : Int) > 8 * (bufB.len.toNat : Int)) := by decide

theorem witness_StrictReadBeforeTheStartFails :
    bufB.len.toNat ≤ bufB.cfg.nbytesMax ∧ (-8 : Int) < 0 ∧ (0 : Int) ≤ 16 ∧ (16 : Int) ≤ 53 := by decide

/-! ## Witnesses: the bit unpacker -/

theorem witness_UnpackFollowsItsRule_errors :
    overCapacity.cfg.nbytesMax < overCapacity.len.toNat ∧ bufB.len.toNat ≤ bufB.cfg.nbytesMax ∧
    ((0 : Int) < 1 ∨ (0 : Int) > 8) ∧ ((9 : Int) < 1 ∨ (9 : Int) > 8) ∧
    (ceilDiv (8 * (bufB.len.toNat : Int) - 24) 8 < 0 ∨
      ceilDiv (8 * (bufB.len.toNat : Int) - 24) 8 > (bufB.cfg.noutMax : Int)) ∧
    (ceilDiv (8 * (bufB.len.toNat : Int) - (-497)) 1 < 0 ∨
      ceilDiv (8 * (bufB.len.toNat : Int) - (-497)) 1 > (bufB.cfg.noutMax : Int)) := by decide

theorem witness_UnpackFollowsItsRule :
    bufB.cfg.Wf ∧ ((1 : Int) ≤ 1 ∧ (1 : Int) ≤ 8 ∧
      ceilDiv (8 * (bufB.len.toNat : Int) - (-496)) 1 = (512 : Nat) ∧ 512 ≤ bufB.cfg.noutMax) ∧
    ((1 : Int) ≤ 8 ∧ (8 : Int) ≤ 8 ∧ ceilDiv (8 * (bufB.len.toNat : Int) - 23) 8 = (0 : Nat) ∧
      0 ≤ bufB.cfg.noutMax) := by decide

theorem test_unpack_limits :
    [(0, 0), (9, 0), (1, -497), (8, 24), (8, 23)].map (fun p => statusOf (exec (.unpack p.1 p.2) bufB)) =
      [some 0x706#32, some 0x706#32, some 0x806#32, some 0x806#32, some 0x22#32] := by decide

theorem witness_OutputLengthOfUnpack :
    ((1 : Int) ≤ 8 ∧ (8 : Int) ≤ 8) ∧ 8 * (bufB.len.toNat : Int) - 0 ≤ (2 : Int) * 8 ∧
    (24 : Int) ≥ 8 * (bufB.len.toNat : Int) + 8 := by decide

theorem witness_OutputLengthOfUnpack_success :
    ∃ t, (input [0xFF#8]).cfg.Wf ∧ exec (.unpack 5 (-5)) (input [0xFF#8]) = .next t ∧ Status.err t.status = false :=
  ⟨{ sequenceDone with cmd := 0#32 }, by decide, next_of_after (by decide), by decide⟩

theorem witness_PaddingOfUnpack :
    (1 ≤ 5 ∧ 5 ≤ 8) ∧ ((1 : Nat) < 5 ∧ (-2 : Int) + (0 : Nat) * (5 : Nat) + (1 : Nat) < 0) ∧
    (((0 : Nat) : Int) + 1) * (5 : Nat) ≤ -(-5 : Int) ∧
    (groupCount bufB 5 (-2) = (4 : Nat) ∧ 1 ≤ 4 ∧ ((2 : Nat) : Int) = -2 + (4 : Nat) * (5 : Nat) - 8 * (bufB.len.toNat : Int)) ∧
    1 ≤ groupCount bufB 5 (-2) := by decide

theorem witness_UnpackerLaws : 1 < bufB.len.toNat ∧ 0 < 1 := by decide

theorem witness_UnpackPreservesOrder :
    (1 ≤ 5 ∧ 5 ≤ 8) ∧ (0 : Int) ≤ 0 ∧ (identifier 2#8 0#8).len = (identifier 1#8 0xFF#8).len ∧
    groupCount (identifier 1#8 0xFF#8) 5 0 = (34 : Nat) ∧
    (identifier 1#8 0xFF#8).inputBytes < (identifier 2#8 0#8).inputBytes := by decide

/-- Equal inputs in buffers that differ beyond LEN. -/
theorem witness_UnpackPreservesOrder_equal :
    (1 ≤ 8 ∧ 8 ≤ 8) ∧ (-8 : Int) ≤ 0 ∧ groupCount bufS 8 (-8) = (2 : Nat) ∧
    bufS.inputBytes = ({ bufS with buf := [(0, 0xA5#8), (1, 0xFF#8)] } : State).inputBytes := by decide

/-! ## Witnesses: the Crockford encoder -/

theorem witness_CrockFollowsItsRule :
    overCapacity.cfg.nbytesMax < overCapacity.len.toNat ∧ (bufA.len.toNat ≤ bufA.cfg.nbytesMax ∧ bufA.len.toNat ≠ 21) ∧
    (bufK.len.toNat ≤ bufK.cfg.nbytesMax ∧ bufK.len.toNat = 21) := by decide

theorem witness_AlphabetTable :
    9 ≤ 9 ∧ (10 ≤ 17 ∧ 17 ≤ 17) ∧ (18 ≤ 19 ∧ 19 ≤ 19) ∧ (20 ≤ 21 ∧ 21 ≤ 21) ∧ (22 ≤ 26 ∧ 26 ≤ 26) ∧
    (27 ≤ 31 ∧ 31 ≤ 31) ∧ (30 < 31 ∧ 31 < 32) := by decide

theorem witness_CrockIsAlphaOfUnpack : bufK.cfg.Wf ∧ bufK.len = 21#32 ∧ 33 < 34 := by decide

theorem witness_CrockGroupsAreBase32Digits : bufK.len = 21#32 ∧ 33 < 34 := by decide

theorem witness_CrockTextLayout :
    ∃ t, bufK.cfg.Wf ∧ bufK.len = 21#32 ∧ exec .crock bufK = .next t ∧ 9 < 10 ∧ (10 ≤ 10 ∧ 10 < 34) ∧ (10 ≤ 33 ∧ 33 < 34) :=
  ⟨_, by decide, by decide, rfl, by decide⟩

theorem witness_CrockTextLayout_zeros :
    ∃ t, (uniform 0x00#8).cfg.Wf ∧ (uniform 0x00#8).len = 21#32 ∧
      (∀ j, j < 21 → Memory.read (uniform 0x00#8).buf j = 0x00#8) ∧ exec .crock (uniform 0x00#8) = .next t :=
  ⟨_, by decide, by decide, by decide, rfl⟩

theorem witness_CrockTextLayout_ones :
    ∃ t, (uniform 0xFF#8).cfg.Wf ∧ (uniform 0xFF#8).len = 21#32 ∧
      (∀ j, j < 21 → Memory.read (uniform 0xFF#8).buf j = 0xFF#8) ∧ exec .crock (uniform 0xFF#8) = .next t :=
  ⟨_, by decide, by decide, by decide, rfl⟩

/-- The pair of spec/95_test_vectors.md section 5.3, first row, with its two texts. -/
theorem witness_CrockPreservesOrder :
    ∃ t v, (identifier 1#8 0xFF#8).cfg.Wf ∧ (identifier 2#8 0x00#8).cfg.Wf ∧ (identifier 1#8 0xFF#8).len = 21#32 ∧
      (identifier 2#8 0x00#8).len = 21#32 ∧ exec .crock (identifier 1#8 0xFF#8) = .next t ∧
      exec .crock (identifier 2#8 0x00#8) = .next v ∧
      t.outSequence = (List.replicate 9 0x30#8 ++ [0x31#8] ++ List.replicate 24 0x5A#8).map some ∧
      v.outSequence = (List.replicate 9 0x30#8 ++ [0x32#8] ++ List.replicate 24 0x30#8).map some ∧
      bigEndian (memRead (identifier 1#8 0xFF#8)) 0 6 < bigEndian (memRead (identifier 2#8 0x00#8)) 0 6 :=
  ⟨_, _, by decide, by decide, by decide, by decide, rfl, rfl, by decide, by decide, by decide⟩

/-- Two blocks with the same identifier, one of them after another command. -/
theorem witness_CrockIsInjective :
    ∃ t v, bufK.cfg.Wf ∧ scalarDone.cfg.Wf ∧ bufK.len = 21#32 ∧ scalarDone.len = 21#32 ∧
      exec .crock bufK = .next t ∧ exec .crock scalarDone = .next v ∧ t.outSequence = v.outSequence :=
  ⟨_, _, by decide, by decide, by decide, by decide, rfl, rfl, by decide⟩

/-! ## Witnesses: the host's side -/

/-- Every host action of an idle block at the end of its range. -/
theorem witness_EffectsOfHostAccesses :
    bufA.Inv ∧ bufA.busy = false ∧ 5 ∈ [1, 3, 4, 5] ∧ 31 < bufA.cfg.nbytesMax ∧ 511 < bufA.cfg.noutMax ∧ 5 ≤ 5 :=
  ⟨inv_bufA, by decide⟩

theorem inv_hostNext {s : State} (a : HostAction) (h : s.Inv) : (hostNext a s).Inv :=
  ⟨h.cfg, h.bufWf, h.bufBelow, h.outRising, h.outBelow, h.status, h.scalar, h.sequence, h.outLen, h.outListed⟩

/-- All hypotheses of a clause about the host action `a`, in a state of the invariant. -/
theorem witness_EffectsOfHostAccesses_action (a : HostAction) :
    (hostNext a bufA).Inv ∧ (hostNext a bufA).busy = false ∧ HostMoves a (hostNext a bufA) { bufA with inputs := [] } :=
  ⟨inv_hostNext a inv_bufA, by show bufA.busy = false; decide, hostNext_moves a bufA⟩

theorem witness_SpecifiedHostReads_scalar :
    (hostNext (.readReg 4) scalarDone).Inv ∧ (hostNext (.readReg 4) scalarDone).busy = false ∧
    Status.rk (hostNext (.readReg 4) scalarDone).status = 1#2 ∧
    HostMoves (.readReg 4) (hostNext (.readReg 4) scalarDone) { scalarDone with inputs := [] } :=
  ⟨inv_hostNext _ inv_scalarDone, by decide, by decide, hostNext_moves _ _⟩

theorem witness_SpecifiedHostReads_sequence :
    (hostNext (.readOut 2) sequenceDone).Inv ∧ (hostNext (.readOut 2) sequenceDone).busy = false ∧
    Status.rk (hostNext (.readOut 2) sequenceDone).status = 2#2 ∧ 2 < sequenceDone.outLen.toNat ∧
    HostMoves (.readOut 2) (hostNext (.readOut 2) sequenceDone) { sequenceDone with inputs := [] } :=
  ⟨inv_hostNext _ inv_sequenceDone, by decide, by decide, by decide, hostNext_moves _ _⟩

theorem witness_UnspecifiedHostReads :
    (hostNext (.readReg 3) sequenceDone).busy = false ∧ Status.rk (hostNext (.readReg 3) sequenceDone).status ≠ 1#2 ∧
    HostMoves (.readReg 3) (hostNext (.readReg 3) sequenceDone) { sequenceDone with inputs := [] } :=
  ⟨by decide, by decide, hostNext_moves _ _⟩

theorem witness_UnspecifiedHostReads_out_len :
    (hostNext (.readReg 5) scalarDone).busy = false ∧ Status.rk (hostNext (.readReg 5) scalarDone).status ≠ 2#2 ∧
    HostMoves (.readReg 5) (hostNext (.readReg 5) scalarDone) { scalarDone with inputs := [] } :=
  ⟨by decide, by decide, hostNext_moves _ _⟩

/-- OUT at index OUT_LEN, the first byte without a specified value. -/
theorem witness_UnspecifiedHostReads_out :
    (hostNext (.readOut 3) sequenceDone).busy = false ∧ 3 < sequenceDone.cfg.noutMax ∧
    (Status.rk sequenceDone.status ≠ 2#2 ∨ sequenceDone.outLen.toNat ≤ 3) ∧
    HostMoves (.readOut 3) (hostNext (.readOut 3) sequenceDone) { sequenceDone with inputs := [] } :=
  ⟨by decide, by decide, by decide, hostNext_moves _ _⟩

/-- A busy block with any host action next, and the ends of the ranges. -/
theorem witness_HazardRule (a : HostAction) :
    (hostNext a (inFlight 0x40000000#32 bufA)).busy = true ∧
    HostMoves a (hostNext a (inFlight 0x40000000#32 bufA)) { inFlight 0x40000000#32 bufA with inputs := [] } ∧
    5 ≤ 5 ∧ 0 ≠ 1 ∧ 31 < bufA.cfg.nbytesMax ∧ 511 < bufA.cfg.noutMax :=
  ⟨by show (inFlight 0x40000000#32 bufA).busy = true; decide, hostNext_moves _ _, by decide⟩

theorem witness_OnlyHostAccessesStop :
    step (hostNext (.writeBuf 0 0#8) (inFlight 0x40000000#32 bufA)) = .fault .hostWriteWhileBusy ∧
    step (hostNext (.readReg 6) bufA) = .refused .noSuchRegister ∧
    step (hostNext (.writeBuf 32 0#8) bufA) = .refused .noSuchBufIndex ∧
    step (hostNext (.readOut 512) bufA) = .refused .noSuchOutIndex := ⟨rfl, rfl, rfl, rfl⟩

theorem witness_ReservedBitsReadZero :
    scalarDone.Inv ∧ (hostNext (.readReg 4) bufA).busy = false ∧
    HostMoves (.readReg 4) (hostNext (.readReg 4) bufA) { bufA with inputs := [] } ∧
    ((0x12E00300#32).getLsbD 25 = true ∨ (0x12E00300#32).getLsbD 24 = true) ∧
    ((0x11E00300#32).getLsbD 25 = true ∨ (0x11E00300#32).getLsbD 24 = true) :=
  ⟨inv_scalarDone, by decide, hostNext_moves _ _, by decide, by decide⟩

theorem witness_CommandSeesEarlierWrites :
    ∃ s : State, s.Inv ∧ s.busy = false ∧ 31 < s.cfg.nbytesMax ∧ decode 0x20080000#32 = .ok (.rdbits 0 8) ∧
      s.inputs = .host (.writeBuf 31 0xFF#8) :: .host (.writeReg 2 32#32) :: .host (.writeReg 0 0x20080000#32) ::
        .block :: [] :=
  ⟨{ bufA with inputs := [.host (.writeBuf 31 0xFF#8), .host (.writeReg 2 32#32), .host (.writeReg 0 0x20080000#32),
      .block] },
    ⟨inv_bufA.cfg, inv_bufA.bufWf, inv_bufA.bufBelow, inv_bufA.outRising, inv_bufA.outBelow, inv_bufA.status,
      inv_bufA.scalar, inv_bufA.sequence, inv_bufA.outLen, inv_bufA.outListed⟩,
    by decide, by decide, by decide, rfl⟩

theorem witness_NextIssueClearsTheError :
    ∃ t, exec (.rdbits 12 8) bufB = .next t ∧ Status.err t.status = true :=
  ⟨{ bufB with status := 0x506#32 }, next_of_after (by decide), by decide⟩

end Sys2Proof.Tests
end

section
/-! PROOFS. The statements about the state (spec/10_state.md): its values after reset (R40), what changes STATUS (R23),
what a command depends on (R38) and the reserved bits (R43). -/

namespace Sys2Proof.Machine

/-! ## An issue and the values without a result -/

/-- The issue with STATUS as the word R23 gives. -/
theorem State.issue_eq (s : State) (w : Word) : s.issue w = { s with cmd := w, status := 0x1#32 } := by
  rw [State.issue, Status.issued_eq]

/-- A host write to CMD is an issue (R68). -/
@[simp] theorem State.perform_writeCmd (s : State) (w : Word) : s.perform (.writeReg 0 w) = s.issue w := rfl

@[simp] theorem State.perform_reset (s : State) : s.perform .reset = s.hostReset := rfl

/-- While RK = 0 none of the result registers has a specified value (R39). -/
theorem State.regValue?_of_rk_zero {s : State} (h : Status.rk s.status = 0#2) :
    s.regValue? 3 = none ∧ s.regValue? 4 = none ∧ s.regValue? 5 = none := by
  simp [State.regValue?, h]

/-- While RK is not 2 no byte of OUT has a specified value (R39). -/
theorem State.outValue?_of_rk_ne {s : State} (h : Status.rk s.status ≠ 2#2) (j : Nat) : s.outValue? j = none := by
  simp [State.outValue?, h]

/-- A host write to CMD at an idle block is accepted, whatever the word. -/
theorem hostAct_writeCmd {s : State} (hb : s.busy = false) (w : Word) :
    hostAct (.writeReg 0 w) s = .next (s.issue w) :=
  hostAct_idle rfl hb

@[simp] theorem State.busy_resetWith (cfg : Config) : (State.resetWith cfg).busy = false := Status.busy_zero

/-- Settles O11, from the reset values of each field and the rule that RK = 0 leaves the results without a value. -/
theorem resetLeavesTheseValues : Obligations.ResetLeavesTheseValues := by
  intro cfg
  obtain ⟨hlo, hhi, hlen⟩ := (State.resetWith cfg).regValue?_of_rk_zero Status.rk_zero
  have hout : ∀ j, (State.resetWith cfg).outValue? j = none := State.outValue?_of_rk_ne (by simp)
  have hissue : ∀ w, ∃ t, hostAct (.writeReg 0 w) (State.resetWith cfg) = .next t ∧ t.cmd = w ∧ t.status = 0x1#32 :=
    fun w => ⟨_, hostAct_writeCmd (State.busy_resetWith cfg) w, State.issue_cmd _ w, Status.issued_eq⟩
  exact ⟨rfl, rfl, Status.busy_zero, Status.done_zero, Status.err_zero, Status.rk_zero, Status.cause_zero, rfl,
    Memory.read_nil, hlo, hhi, hlen, hout, hissue⟩

/-! ## What changes STATUS -/

/-- A host action other than a write to CMD and Reset leaves STATUS alone. -/
theorem State.perform_status_cases (s : State) (a : HostAction) :
    (s.perform a).status = s.status ∨ (∃ w, a = .writeReg 0 w) ∨ a = .reset := by
  cases a with
  | writeReg k v =>
    match k with
    | 0 => exact .inr (.inl ⟨v, rfl⟩)
    | 1 | 2 | _ + 3 => exact .inl rfl
  | readReg k =>
    obtain ⟨v, d, h⟩ := s.answerRegister_eq k
    exact .inl (by rw [State.perform, h])
  | readOut j =>
    obtain ⟨v, d, h⟩ := s.answerOut_eq j
    exact .inl (by rw [State.perform, h])
  | writeBuf i v => exact .inl rfl
  | readBuf i => exact .inl rfl
  | writeOut j v => exact .inl rfl
  | reset => exact .inr (.inr rfl)

theorem BlockMoves.status_eq {s s0 : State} (h : BlockMoves s s0) : s0.status = s.status := by rw [h.eq]

theorem BlockMoves.cmd_eq {s s0 : State} (h : BlockMoves s s0) : s0.cmd = s.cmd := by rw [h.eq]

theorem HostMoves.status_eq {a : HostAction} {s s0 : State} (h : HostMoves a s s0) : s0.status = s.status := by
  rw [h.eq]

/-- A step leaves STATUS alone, or is an issue at an idle block, or a completion, or Reset (R23, R40). -/
theorem step_status_cases {s t : State} (h : step s = .next t) :
    t.status = s.status ∨
    (∃ w s0, HostMoves (.writeReg 0 w) s s0 ∧ s.busy = false ∧ t = s0.issue w) ∨
    (∃ s0, BlockMoves s s0 ∧ s.busy = true ∧ complete s0 = .next t) ∨
    (∃ s0, HostMoves .reset s s0 ∧ t = s0.hostReset) := by
  obtain ⟨s0, hm, -, rfl⟩ | hc | ⟨a, s0, hm, -, hz, rfl⟩ | ⟨ev, rfl⟩ := step_next h
  · exact .inl hm.status_eq
  · exact .inr (.inr (.inl hc))
  · obtain hst | ⟨w, rfl⟩ | rfl := s0.perform_status_cases a
    · exact .inl (hst.trans hm.status_eq)
    · have hidle : s.busy = false := by
        by_contra hb
        simpa [HostAction.hazard?] using hz (by simpa using hb)
      exact .inr (.inl ⟨w, s0, hm, hidle, rfl⟩)
    · exact .inr (.inr (.inr ⟨s0, hm, rfl⟩))
  · exact .inl rfl

/-- STATUS after a completion: the success value of the command's kind, or an error value (R23). -/
theorem complete_status {s t : State} (h : complete s = .next t) :
    (t.status = Status.doneScalar ∧ s.cmdIs true = true) ∨ (t.status = Status.doneSequence ∧ s.cmdIs false = true) ∨
      ∃ c, t.status = Status.violation c := by
  obtain ⟨c, hc⟩ | ⟨hk, v, hc⟩ | ⟨hk, bytes, hc, -⟩ := complete_cases s <;>
    obtain rfl := Host.Outcome.next.inj (hc.symm.trans h)
  · exact .inr (.inr ⟨c, rfl⟩)
  · exact .inl ⟨rfl, hk⟩
  · exact .inr (.inl ⟨rfl, hk⟩)

/-- A command completes with the success value of its kind or with an error value (R23). -/
theorem exec_status (i : Instr) (s : State) :
    ∃ t, exec i s = .next t ∧ (t.status = (if scalarCommand i then Status.doneScalar else Status.doneSequence) ∨
      ∃ c, t.status = Status.violation c) := by
  obtain ⟨c, -, hc⟩ | ⟨hk, v, hc⟩ | ⟨hk, bytes, hc, -⟩ := exec_cases i s
  · exact ⟨_, hc, .inr ⟨c, rfl⟩⟩
  · exact ⟨_, hc, .inl (by simp [hk])⟩
  · exact ⟨_, hc, .inl (by simp [hk])⟩

/-- A completion of a legal word runs the command it decodes to. -/
theorem complete_of_decode {s : State} {i : Instr} (h : decode s.cmd = .ok i) : complete s = exec i s := by
  simp [complete, h]

/-- Every step keeps STATUS among the fourteen values of R23. -/
theorem step_status_reachable {s t : State} (hs : s.status ∈ Status.reachable) (h : step s = .next t) :
    t.status ∈ Status.reachable := by
  obtain hst | ⟨w, s0, -, -, rfl⟩ | ⟨s0, -, -, hc⟩ | ⟨s0, -, rfl⟩ := step_status_cases h
  · exact hst ▸ hs
  · exact Status.reachable_issued
  · obtain ⟨hst, -⟩ | ⟨hst, -⟩ | ⟨c, hst⟩ := complete_status hc <;> rw [hst]
    · exact Status.reachable_doneScalar
    · exact Status.reachable_doneSequence
    · exact Status.reachable_violation c
  · exact Status.reachable_zero

/-- Settles O17, from the three kinds of step that can change STATUS. -/
theorem statusChangesOnlyAtIssueAndCompletion : Obligations.StatusChangesOnlyAtIssueAndCompletion := by
  refine ⟨fun s t h hne => ?_, fun s s0 w hm hb => ?_, fun s s0 i hm hb hd => ?_, Status.reachable_zero,
    fun s t => step_status_reachable⟩
  · obtain hst | ⟨w, s0, hm, hb, rfl⟩ | ⟨s0, hm, hb, hc⟩ | ⟨s0, hm, rfl⟩ := step_status_cases h
    · exact absurd hst hne
    · exact .inl ⟨w, s0, hm, hb, rfl, Status.issued_eq⟩
    · have hcmd : ∀ k, s0.cmdIs k = s.cmdIs k := fun k => by rw [State.cmdIs, State.cmdIs, hm.cmd_eq]
      refine .inr (.inl ⟨s0, hm, hb, ?_⟩)
      simpa only [Status.doneScalar_eq, Status.doneSequence_eq, Status.violation_eq, hcmd] using complete_status hc
    · exact .inr (.inr ⟨s0, hm, rfl⟩)
  · rw [step_host_idle hm rfl hb, State.perform_writeCmd, State.issue_eq]
  · rw [step_block_busy hm hb, complete_of_decode (hm.cmd_eq ▸ hd)]
    simpa only [Status.doneScalar_eq, Status.doneSequence_eq, Status.violation_eq] using exec_status i s0

/-! ## What a command depends on -/

/-- Two states with the same capacities and the same input sequence BUF[0..LEN-1]. -/
structure SameSequence (s u : State) : Prop where
  cfg : u.cfg = s.cfg
  len : u.len = s.len
  bytes : ∀ a, a < s.len.toNat → Memory.read u.buf a = Memory.read s.buf a

/-- The outcomes of one command on `s` and on `u` are the same completion: the same cause, the same scalar or the same
sequence. -/
inductive SameCompletion (s u : State) :
    Host.Outcome State Fault Refusal → Host.Outcome State Fault Refusal → Prop where
  | raise (c : Cause) : SameCompletion s u (.next (s.raise c)) (.next (u.raise c))
  | returnScalar (v : Nat) : SameCompletion s u (.next (s.returnScalar v)) (.next (u.returnScalar v))
  | returnSequence (bytes : List Byte) :
    SameCompletion s u (.next (s.returnSequence bytes)) (.next (u.returnSequence bytes))

/-- The same completion gives the same STATUS and the same valid result. -/
theorem SameCompletion.result_eq {s u t v : State} (h : SameCompletion s u (.next t) (.next v)) :
    v.status = t.status ∧ (Status.rk t.status = 1#2 → v.result = t.result) ∧
      (Status.rk t.status = 2#2 → v.out = t.out ∧ v.outLen = t.outLen) := by
  cases h with
  | raise c => simp
  | returnScalar x => simp
  | returnSequence bytes => simp

section
variable {s u : State} (h : SameSequence s u)
include h

theorem SameSequence.lenOverCapacity_eq : u.lenOverCapacity = s.lenOverCapacity := by
  rw [State.lenOverCapacity, State.lenOverCapacity, h.cfg, h.len]

theorem SameSequence.memRead_eq {i : Int} (h0 : 0 ≤ i) (h1 : i < (s.len.toNat : Int)) :
    memRead u i = memRead s i :=
  h.bytes i.toNat (by omega)

theorem SameSequence.memReadLoose_eq : memReadLoose u = memReadLoose s := by
  funext i
  by_cases hi : 0 ≤ i ∧ i < (s.len.toNat : Int)
  · obtain ⟨h0, h1⟩ := hi
    rw [memReadLoose_inside h0 (h.len ▸ h1), memReadLoose_inside h0 h1, h.memRead_eq h0 h1]
  · have hout : i < 0 ∨ (s.len.toNat : Int) ≤ i := by omega
    rw [memReadLoose_outside (h.len ▸ hout), memReadLoose_outside hout]

/-- A strict read inside the buffer depends on the input sequence alone. -/
theorem SameSequence.readBits_memRead_eq {off : Int} {n : Nat} (h0 : 0 ≤ off)
    (h1 : off + n ≤ 8 * (s.len.toNat : Int)) : readBits (memRead u) off n = readBits (memRead s) off n := by
  refine readBits_congr fun k hk => ?_
  rw [bitAt_eq, bitAt_eq, h.memRead_eq (by omega) (by omega)]

theorem SameSequence.groupCount_eq (bits off : Int) : groupCount u bits off = groupCount s bits off := by
  rw [groupCount, groupCount, h.len]

theorem SameSequence.group_eq (bits off : Int) (i : Nat) : group u bits off i = group s bits off i := by
  rw [group, group, h.memReadLoose_eq]

theorem SameSequence.groups_eq (bits off : Int) (n : Nat) : groups u bits off n = groups s bits off n := by
  simp only [groups, h.group_eq]

theorem SameSequence.crockText_eq : crockText u = crockText s := by
  simp only [crockText, h.group_eq]

/-- A command on two states with the same capacities and input sequence completes in the same way, whatever else they
hold (R38; spec/20_memory.md R57). -/
theorem SameSequence.exec_sameCompletion (i : Instr) : SameCompletion s u (exec i s) (exec i u) := by
  cases i with
  | xbyte b o n =>
    simp only [exec, execXbyte]
    split_ifs
    exacts [.raise _, .raise _, .raise _, .returnScalar _]
  | xbyteD b o =>
    simp only [exec, execXbyteD]
    split_ifs
    exacts [.raise _, .returnScalar _]
  | rdbits off n =>
    simp only [exec, execRdbits, h.lenOverCapacity_eq, h.len]
    split_ifs with hcap hn hoff hend
    · exact .raise _
    · exact .raise _
    · exact .raise _
    · exact .raise _
    · rw [h.readBits_memRead_eq (by omega) (by omega)]
      exact .returnScalar _
  | rdbitsL off n =>
    simp only [exec, execRdbitsL, h.lenOverCapacity_eq, h.memReadLoose_eq]
    split_ifs
    exacts [.raise _, .raise _, .returnScalar _]
  | unpack bits off =>
    simp only [exec, execUnpack, h.lenOverCapacity_eq, h.groupCount_eq, h.groups_eq, h.cfg]
    split_ifs
    exacts [.raise _, .raise _, .raise _, .returnSequence _]
  | crock =>
    simp only [exec, execCrock, h.lenOverCapacity_eq, h.crockText_eq, h.len]
    split_ifs
    exacts [.raise _, .raise _, .returnSequence _]

end

/-- No command writes BUF or LEN (R38). -/
theorem exec_buf_len {i : Instr} {s t : State} (h : exec i s = .next t) : t.buf = s.buf ∧ t.len = s.len := by
  obtain ⟨c, -, hc⟩ | ⟨-, v, hc⟩ | ⟨-, bytes, hc, -⟩ := exec_cases i s <;>
    obtain rfl := Host.Outcome.next.inj (hc.symm.trans h) <;>
    exact ⟨rfl, rfl⟩

/-- Settles O20: equal BUF and LEN give the same input sequence, on which the command completes in the same way. -/
theorem sameCommandSameOutcome : Obligations.SameCommandSameOutcome := by
  refine ⟨fun i s t => exec_buf_len, fun i s u t v hcfg hlen hbuf hs hu => ?_⟩
  have hseq : SameSequence s u := ⟨hcfg, hlen, fun a _ => by rw [hbuf]⟩
  have hend := hseq.exec_sameCompletion i
  rw [hs, hu] at hend
  exact hend.result_eq

/-! ## Reserved bits -/

/-- Every value of STATUS that R23 lists has its reserved bits 0 (R43). -/
theorem Status.reserved_of_reachable :
    ∀ w ∈ Status.reachable, w.getLsbD 3 = false ∧ bitsOf w 7 6 = 0 ∧ bitsOf w 31 12 = 0 := by
  simp [Status.reachable, bitsOf]

/-- A value of 21 bits leaves bits 31:21 of a word 0. -/
theorem bitsOf_setWidth_21 (x : BitVec 21) : bitsOf (x.setWidth 32) 31 21 = 0 := by
  have hx : x.toNat >>> 21 = 0 := by rw [Nat.shiftRight_eq_div_pow, Nat.div_eq_of_lt x.isLt]
  rw [bitsOf, BitVec.toNat_setWidth_of_le (by decide), hx, Nat.zero_and]

/-- A host read of RESULT_HI replies with bits 31:21 zero, whether RESULT is valid or not (R26, R43). -/
theorem State.answerRegister_resultHi (s : State) :
    ∃ v d, s.answerRegister 4 = { s with replies := .word v :: s.replies, draws := d } ∧ bitsOf v 31 21 = 0 := by
  unfold State.answerRegister
  split
  · next v hv =>
    have hv : s.resultHi = v := by
      simp only [State.regValue?] at hv
      split at hv
      · exact Option.some.inj hv
      · cases hv
    exact ⟨v, s.draws, rfl, hv ▸ bitsOf_setWidth_21 _⟩
  · exact ⟨_, _, rfl, bitsOf_setWidth_21 _⟩

/-- The top byte of a word with bit 25 or 24 set has its bit 1 or 0 set. -/
theorem field8_24_ne_of_reserved {w : Word} (h : w.getLsbD 25 = true ∨ w.getLsbD 24 = true) {top : BitVec 8}
    (h0 : top.getLsbD 0 = false) (h1 : top.getLsbD 1 = false) : field8 w 24 ≠ top := by
  rintro rfl
  have h24 : w.getLsbD 24 = false := by simpa [field8] using h0
  have h25 : w.getLsbD 25 = false := by simpa [field8] using h1
  simp only [h24, h25, Bool.false_eq_true, or_self] at h

/-- No row of R85 has bit 25 or 24 set. -/
theorem decode_of_reserved {w : Word} (h : w.getLsbD 25 = true ∨ w.getLsbD 24 = true) :
    decode w = .error .illegalCmd := by
  have hcrock : w ≠ 0x40000000#32 := by
    rintro rfl
    revert h
    decide
  have htop {top : BitVec 8} := field8_24_ne_of_reserved h (top := top)
  rw [decode, if_neg (htop rfl rfl), if_neg fun hx => htop rfl rfl hx.1, if_neg (htop rfl rfl),
    if_neg (htop rfl rfl), if_neg (htop rfl rfl), if_neg hcrock]

/-- Settles O56, from the listed values of STATUS, the 21 bits behind RESULT_HI and the rows of R85. -/
theorem reservedBitsReadZero : Obligations.ReservedBitsReadZero := by
  refine ⟨fun s hinv => Status.reserved_of_reachable s.status hinv.status, fun s s0 hb hm => ?_,
    fun w => decode_of_reserved⟩
  obtain ⟨v, d, hread, hbits⟩ := s0.answerRegister_resultHi
  have hreplies : s0.replies = s.replies := by rw [hm.eq]
  refine ⟨v, d, ?_, hbits⟩
  rw [step_host_idle hm rfl hb, State.perform, hread, hreplies]

end Sys2Proof.Machine
end

section
/-! PROOFS. The statements about the byte spaces and the registers (spec/20_memory.md): what each access of the host to
an idle block changes (R68). -/

namespace Sys2Proof.Machine

/-! ## Accesses in range (R58) -/

section
variable {cfg : Config} {k i : Nat}

theorem HostAction.outOfRange?_writeReg (h : k ≤ 5) (v : Word) : (HostAction.writeReg k v).outOfRange? cfg = none :=
  if_neg (by omega)

theorem HostAction.outOfRange?_readReg (h : k ≤ 5) : (HostAction.readReg k).outOfRange? cfg = none :=
  if_neg (by omega)

theorem HostAction.outOfRange?_writeBuf (h : i < cfg.nbytesMax) (v : Byte) :
    (HostAction.writeBuf i v).outOfRange? cfg = none :=
  if_neg (by omega)

theorem HostAction.outOfRange?_readBuf (h : i < cfg.nbytesMax) : (HostAction.readBuf i).outOfRange? cfg = none :=
  if_neg (by omega)

theorem HostAction.outOfRange?_writeOut (h : i < cfg.noutMax) (v : Byte) :
    (HostAction.writeOut i v).outOfRange? cfg = none :=
  if_neg (by omega)

theorem HostAction.outOfRange?_readOut (h : i < cfg.noutMax) : (HostAction.readOut i).outOfRange? cfg = none :=
  if_neg (by omega)

end

/-! ## The effect of each access (R58, R68) -/

@[simp] theorem State.perform_writeLen (s : State) (v : Word) : s.perform (.writeReg 2 v) = { s with len := v } := rfl

/-- STATUS, RESULT_LO, RESULT_HI and OUT_LEN ignore a host write. -/
theorem State.perform_writeReadOnly {k : Nat} (hk : k ∈ [1, 3, 4, 5]) (s : State) (v : Word) :
    s.perform (.writeReg k v) = s := by
  simp only [List.mem_cons, List.not_mem_nil, or_false] at hk
  obtain rfl | rfl | rfl | rfl := hk <;> rfl

@[simp] theorem State.perform_writeBuf (s : State) (i : Nat) (v : Byte) :
    s.perform (.writeBuf i v) = { s with buf := Memory.write s.buf i v } := rfl

@[simp] theorem State.perform_writeOut (s : State) (j : Nat) (v : Byte) : s.perform (.writeOut j v) = s := rfl

@[simp] theorem State.perform_readReg (s : State) (k : Nat) : s.perform (.readReg k) = s.answerRegister k := rfl

@[simp] theorem State.perform_readBuf (s : State) (i : Nat) :
    s.perform (.readBuf i) = { s with replies := .byte (Memory.read s.buf i) :: s.replies } := rfl

@[simp] theorem State.perform_readOut (s : State) (j : Nat) : s.perform (.readOut j) = s.answerOut j := rfl

/-! ## What a host action finds unchanged -/

theorem HostMoves.buf_eq {a : HostAction} {s s0 : State} (h : HostMoves a s s0) : s0.buf = s.buf := by rw [h.eq]

theorem HostMoves.replies_eq {a : HostAction} {s s0 : State} (h : HostMoves a s s0) : s0.replies = s.replies := by
  rw [h.eq]

/-- Settles O51: at an idle block every access in range has its effect; each clause then reads that effect, a write to
BUF through the canonical form the invariant gives. -/
theorem effectsOfHostAccesses : Obligations.EffectsOfHostAccesses := by
  intro s s0 hinv hb
  refine ⟨fun w hm => ?writeCmd, fun v hm => ?writeLen, fun k v hk hm => ?writeReadOnly, fun i v hi hm => ?writeBuf,
    fun j v hj hm => ?writeOut, fun k hk hm => ?readReg, fun i hi hm => ?readBuf, fun j hj hm => ?readOut⟩
  case writeCmd => rw [step_host_idle hm rfl hb, State.perform_writeCmd, State.issue_eq]
  case writeLen => rw [step_host_idle hm rfl hb, State.perform_writeLen]
  case writeReadOnly =>
    have hk5 : k ≤ 5 := by
      simp only [List.mem_cons, List.not_mem_nil, or_false] at hk
      omega
    rw [step_host_idle hm (HostAction.outOfRange?_writeReg hk5 v) hb, State.perform_writeReadOnly hk]
  case writeBuf =>
    have hread : ∀ a, Memory.read (Memory.write s0.buf i v) a = if a = i then v else Memory.read s.buf a := by
      rw [hm.buf_eq]
      exact Memory.read_write hinv.bufWf i v
    refine ⟨_, step_host_idle hm (HostAction.outOfRange?_writeBuf hi v) hb, ?_, fun a ha => ?_⟩
    · rw [hread, if_pos rfl]
    · rw [hread, if_neg ha]
  case writeOut => exact step_host_idle hm (HostAction.outOfRange?_writeOut hj v) hb
  case readReg =>
    obtain ⟨v, d, hread⟩ := s0.answerRegister_eq k
    refine ⟨v, d, ?_⟩
    rw [step_host_idle hm (HostAction.outOfRange?_readReg hk) hb, State.perform_readReg, hread, hm.replies_eq]
  case readBuf =>
    refine ⟨Memory.read s0.buf i, ?_⟩
    rw [step_host_idle hm (HostAction.outOfRange?_readBuf hi) hb, State.perform_readBuf, hm.replies_eq]
  case readOut =>
    obtain ⟨v, d, hread⟩ := s0.answerOut_eq j
    refine ⟨v, d, ?_⟩
    rw [step_host_idle hm (HostAction.outOfRange?_readOut hj) hb, State.perform_readOut, hread, hm.replies_eq]

end Sys2Proof.Machine
end

section
/-! PROOFS. The statements about command words (spec/30_encoding.md): the rows of the opcode table by mask and match
(R85), the illegal words (R88) and the worked encodings (R95). -/

namespace Sys2Proof

/-! ## The decoder, row by row (R85) -/

section
variable {w : Word}

theorem decode_of_xbyte (h : field8 w 24 = 0x10#8) :
    decode w = .ok (.xbyte (field8 w 16) (field8 w 0).toInt (field8 w 8).toInt) := by
  simp [decode, h]

theorem decode_of_xbyteD (h : field8 w 24 = 0x14#8) (hn : field8 w 8 = 0#8) :
    decode w = .ok (.xbyteD (field8 w 16) (field8 w 0).toInt) := by
  simp [decode, h, hn]

theorem decode_of_rdbits (h : field8 w 24 = 0x20#8) :
    decode w = .ok (.rdbits (field16 w).toInt (field8 w 16).toInt) := by
  simp [decode, h]

theorem decode_of_rdbitsL (h : field8 w 24 = 0x28#8) :
    decode w = .ok (.rdbitsL (field16 w).toInt (field8 w 16).toInt) := by
  simp [decode, h]

theorem decode_of_unpack (h : field8 w 24 = 0x30#8) :
    decode w = .ok (.unpack (field8 w 16).toInt (field16 w).toInt) := by
  simp [decode, h]

theorem decode_crock : decode 0x40000000#32 = .ok .crock := by decide

/-- A word is illegal iff it selects no row. -/
theorem decode_eq_error_iff :
    decode w = .error .illegalCmd ↔
      field8 w 24 ≠ 0x10#8 ∧ ¬(field8 w 24 = 0x14#8 ∧ field8 w 8 = 0#8) ∧ field8 w 24 ≠ 0x20#8 ∧
      field8 w 24 ≠ 0x28#8 ∧ field8 w 24 ≠ 0x30#8 ∧ w ≠ 0x40000000#32 := by
  unfold decode
  split_ifs <;> simp_all

/-- Every command whose operands are representable is what its encoding decodes to (R91). -/
theorem decode_encode {i : Instr} (h : i.wellFormed = true) : decode (encode i) = .ok i := by
  cases i with
  | xbyte b o n =>
    obtain ⟨ho, hn⟩ := Bool.and_eq_true_iff.mp h
    rw [encode, decode_of_xbyte (field8_formatX_24 ..), field8_formatX_16, field8_formatX_0, field8_formatX_8,
      toInt_ofInt_8 ho, toInt_ofInt_8 hn]
  | xbyteD b o =>
    rw [encode, decode_of_xbyteD (field8_formatX_24 ..) (field8_formatX_8 ..), field8_formatX_16, field8_formatX_0,
      toInt_ofInt_8 h]
  | rdbits o n =>
    obtain ⟨ho, hn⟩ := Bool.and_eq_true_iff.mp h
    rw [encode, decode_of_rdbits (field8_formatR_24 ..), field16_formatR, field8_formatR_16, toInt_ofInt_16 ho,
      toInt_ofInt_8 hn]
  | rdbitsL o n =>
    obtain ⟨ho, hn⟩ := Bool.and_eq_true_iff.mp h
    rw [encode, decode_of_rdbitsL (field8_formatR_24 ..), field16_formatR, field8_formatR_16, toInt_ofInt_16 ho,
      toInt_ofInt_8 hn]
  | unpack n o =>
    obtain ⟨hn, ho⟩ := Bool.and_eq_true_iff.mp h
    rw [encode, decode_of_unpack (field8_formatR_24 ..), field16_formatR, field8_formatR_16, toInt_ofInt_8 hn,
      toInt_ofInt_16 ho]
  | crock => rw [encode, crock_word, decode_crock]

/-- A row of the table of worked encodings: the word is what the assembler makes of the command. -/
theorem encode_decode_of_encode_eq {i : Instr} (h : i.wellFormed = true) (hw : encode i = w) :
    encode i = w ∧ decode w = .ok i :=
  ⟨hw, hw ▸ decode_encode h⟩

/-! ## Mask and match (R85) -/

theorem formatX_and (a b c d a' b' c' d' : BitVec 8) :
    formatX a b c d &&& formatX a' b' c' d' = formatX (a &&& a') (b &&& b') (c &&& c') (d &&& d') := by
  apply BitVec.eq_of_getLsbD_eq
  intro i hi
  simp only [formatX, BitVec.getLsbD_and, BitVec.getLsbD_append]
  split_ifs <;> rfl

/-- A mask acts field by field. -/
theorem and_formatX (w : Word) (a b c d : BitVec 8) :
    w &&& formatX a b c d = formatX (field8 w 24 &&& a) (field8 w 16 &&& b) (field8 w 8 &&& c) (field8 w 0 &&& d) := by
  conv_lhs => rw [← formatX_fields w, formatX_and]

theorem formatX_inj {a b c d a' b' c' d' : BitVec 8} :
    formatX a b c d = formatX a' b' c' d' ↔ a = a' ∧ b = b' ∧ c = c' ∧ d = d' := by
  constructor
  · intro h
    exact ⟨by simpa using congrArg (field8 · 24) h, by simpa using congrArg (field8 · 16) h,
      by simpa using congrArg (field8 · 8) h, by simpa using congrArg (field8 · 0) h⟩
  · rintro ⟨rfl, rfl, rfl, rfl⟩
    rfl

/-- A row whose mask is the top byte is selected by that byte. -/
theorem maskTop_eq_iff (top : BitVec 8) :
    w &&& 0xFF000000#32 = formatX top 0#8 0#8 0#8 ↔ field8 w 24 = top := by
  have hmask : 0xFF000000#32 = formatX (BitVec.allOnes 8) 0#8 0#8 0#8 := by decide
  rw [hmask, and_formatX, formatX_inj]
  simp only [BitVec.and_allOnes, BitVec.and_zero, and_true]

/-- A row whose mask is the top byte and the N field is selected by these two. -/
theorem maskTopN_eq_iff (top n : BitVec 8) :
    w &&& 0xFF00FF00#32 = formatX top 0#8 n 0#8 ↔ field8 w 24 = top ∧ field8 w 8 = n := by
  have hmask : 0xFF00FF00#32 = formatX (BitVec.allOnes 8) 0#8 (BitVec.allOnes 8) 0#8 := by decide
  rw [hmask, and_formatX, formatX_inj]
  simp only [BitVec.and_allOnes, BitVec.and_zero, and_true, true_and]

end

end Sys2Proof

namespace Sys2Proof.Machine

/-! ## Worked encodings (R95) -/

/-- Settles O1: each word is the encoding of a command whose operands are representable, so it decodes to it. -/
theorem commandWordsOfTheSpec : Obligations.CommandWordsOfTheSpec :=
  have row := @encode_decode_of_encode_eq
  ⟨row rfl rfl, row rfl rfl, row rfl rfl, row rfl rfl, row rfl rfl, row rfl rfl, row rfl rfl, row rfl rfl,
    row rfl rfl, row rfl rfl, row rfl rfl, row rfl rfl, row rfl rfl⟩

/-! ## The fields as the spec's numbers (R10, R11) -/

theorem toNat_field8 (w : Word) (lo : Nat) : (field8 w lo).toNat = bitsOf w (lo + 7) lo := by
  rw [field8, BitVec.extractLsb'_toNat, bitsOf, Nat.and_two_pow_sub_one_eq_mod, show lo + 7 - lo + 1 = 8 by omega]

theorem toNat_field16 (w : Word) : (field16 w).toNat = bitsOf w 15 0 := by
  rw [field16, BitVec.extractLsb'_toNat, bitsOf, Nat.and_two_pow_sub_one_eq_mod]

theorem ofNat_bitsOf (w : Word) (lo : Nat) : BitVec.ofNat 8 (bitsOf w (lo + 7) lo) = field8 w lo := by
  rw [← toNat_field8, BitVec.ofNat_toNat, BitVec.setWidth_eq]

/-- `sext_N` is the two's-complement reading. -/
theorem sext_toNat {N : Nat} (v : BitVec (N + 1)) : sext (N + 1) v.toNat = v.toInt := by
  have hhalf : v.toNat < 2 ^ N ↔ 2 * v.toNat < 2 ^ (N + 1) := by
    rw [pow_succ]
    omega
  simp [sext, BitVec.toInt_eq_toNat_cond, hhalf]

theorem sext_bitsOf_8 (w : Word) (lo : Nat) : sext 8 (bitsOf w (lo + 7) lo) = (field8 w lo).toInt := by
  rw [← toNat_field8, sext_toNat]

theorem sext_bitsOf_16 (w : Word) : sext 16 (bitsOf w 15 0) = (field16 w).toInt := by
  rw [← toNat_field16, sext_toNat]

/-- Settles O2: the masked word is a row's match iff the top byte (for XBYTE.D with the N field, for CROCK the whole
word) is the row's. -/
theorem rowsSelectByMaskAndMatch : Obligations.RowsSelectByMaskAndMatch := by
  intro w
  have hcrock : w &&& 0xFFFFFFFF#32 = w := BitVec.and_allOnes
  have hbyte : BitVec.ofNat 8 (bitsOf w 23 16) = field8 w 16 := ofNat_bitsOf w 16
  have h16 : sext 8 (bitsOf w 23 16) = (field8 w 16).toInt := sext_bitsOf_8 w 16
  have h8 : sext 8 (bitsOf w 15 8) = (field8 w 8).toInt := sext_bitsOf_8 w 8
  have h0 : sext 8 (bitsOf w 7 0) = (field8 w 0).toInt := sext_bitsOf_8 w 0
  have hlow : sext 16 (bitsOf w 15 0) = (field16 w).toInt := sext_bitsOf_16 w
  rw [hcrock, hbyte, h16, h8, h0, hlow]
  refine ⟨fun h => ?_, fun h => ?_, fun h => ?_, fun h => ?_, fun h => ?_, fun h => ?_,
    fun hx hxd hr hrl hu hc => ?_⟩
  · exact decode_of_xbyte ((maskTop_eq_iff 0x10#8).mp h)
  · obtain ⟨htop, hn⟩ := (maskTopN_eq_iff 0x14#8 0#8).mp h
    exact decode_of_xbyteD htop hn
  · exact decode_of_rdbits ((maskTop_eq_iff 0x20#8).mp h)
  · exact decode_of_rdbitsL ((maskTop_eq_iff 0x28#8).mp h)
  · exact decode_of_unpack ((maskTop_eq_iff 0x30#8).mp h)
  · rw [h, decode_crock]
  · exact decode_eq_error_iff.mpr ⟨mt (maskTop_eq_iff 0x10#8).mpr hx, mt (maskTopN_eq_iff 0x14#8 0#8).mpr hxd,
      mt (maskTop_eq_iff 0x20#8).mpr hr, mt (maskTop_eq_iff 0x28#8).mpr hrl, mt (maskTop_eq_iff 0x30#8).mpr hu, hc⟩

/-! ## The illegal words (R88) -/

/-- CROCK's word by its fields. -/
theorem eq_crock_iff (w : Word) :
    w = 0x40000000#32 ↔ field8 w 24 = 0x40#8 ∧ field8 w 16 = 0#8 ∧ field16 w = 0#16 := by
  constructor
  · rintro rfl
    decide
  · rintro ⟨htop, hn, hoff⟩
    rw [← formatR_fields w, htop, hn, hoff, crock_word]

theorem field8_eq_iff (w : Word) (lo : Nat) (v : BitVec 8) : field8 w lo = v ↔ bitsOf w (lo + 7) lo = v.toNat := by
  rw [← toNat_field8, BitVec.toNat_inj]

theorem field16_eq_iff (w : Word) (v : BitVec 16) : field16 w = v ↔ bitsOf w 15 0 = v.toNat := by
  rw [← toNat_field16, BitVec.toNat_inj]

/-- The rows of R85 by the numbers in a word's fields. -/
theorem decode_eq_error_iff_bitsOf (w : Word) :
    decode w = .error .illegalCmd ↔
      bitsOf w 31 24 ≠ 0x10 ∧ ¬(bitsOf w 31 24 = 0x14 ∧ bitsOf w 15 8 = 0) ∧ bitsOf w 31 24 ≠ 0x20 ∧
      bitsOf w 31 24 ≠ 0x28 ∧ bitsOf w 31 24 ≠ 0x30 ∧
      ¬(bitsOf w 31 24 = 0x40 ∧ bitsOf w 23 16 = 0 ∧ bitsOf w 15 0 = 0) := by
  rw [decode_eq_error_iff]
  simp only [ne_eq, eq_crock_iff, field8_eq_iff, field16_eq_iff]
  rfl

/-- A bit of a word is its one-bit field. -/
theorem toNat_getLsbD (w : Word) (i : Nat) : (w.getLsbD i).toNat = bitsOf w i i := by
  rw [BitVec.getLsbD, Nat.toNat_testBit, bitsOf, Nat.sub_self, Nat.and_two_pow_sub_one_eq_mod,
    Nat.shiftRight_eq_div_pow]

/-- The top byte is OP, L, DL and the two reserved bits (R82, R83). -/
theorem bitsOf_top (w : Word) :
    bitsOf w 31 24 = 16 * bitsOf w 31 28 + 8 * (w.getLsbD 27).toNat + 4 * (w.getLsbD 26).toNat +
      2 * (w.getLsbD 25).toNat + (w.getLsbD 24).toNat := by
  simp only [toNat_getLsbD, bitsOf, Nat.and_two_pow_sub_one_eq_mod, Nat.shiftRight_eq_div_pow]
  omega

/-- R88's list against the rows of R85, for a top byte whose two reserved bits are 0. -/
theorem noRow_iff_listed {top op l dl n hi lo : Nat} (hl : l < 2) (hdl : dl < 2)
    (htop : top = 16 * op + 8 * l + 4 * dl) :
    (top ≠ 0x10 ∧ ¬(top = 0x14 ∧ n = 0) ∧ top ≠ 0x20 ∧ top ≠ 0x28 ∧ top ≠ 0x30 ∧ ¬(top = 0x40 ∧ hi = 0 ∧ lo = 0)) ↔
    op = 0 ∨ 5 ≤ op ∨ (op = 1 ∧ l = 1) ∨ (op = 1 ∧ dl = 1 ∧ n ≠ 0) ∨ ((op = 2 ∨ op = 3 ∨ op = 4) ∧ dl = 1) ∨
      ((op = 3 ∨ op = 4) ∧ l = 1) ∨ (op = 4 ∧ (hi ≠ 0 ∨ lo ≠ 0)) := by
  subst htop
  match op with
  | 0 =>
    simp only [true_or, iff_true]
    omega
  | 1 | 2 | 3 | 4 | _ + 5 => omega

/-- The words that select no row are those R88 lists. -/
theorem decode_eq_error_iff_listed (w : Word) :
    decode w = .error .illegalCmd ↔
    bitsOf w 31 28 = 0 ∨ 5 ≤ bitsOf w 31 28 ∨ w.getLsbD 25 = true ∨ w.getLsbD 24 = true ∨
    (bitsOf w 31 28 = 1 ∧ w.getLsbD 27 = true) ∨
    (bitsOf w 31 28 = 1 ∧ w.getLsbD 26 = true ∧ bitsOf w 15 8 ≠ 0) ∨
    ((bitsOf w 31 28 = 2 ∨ bitsOf w 31 28 = 3 ∨ bitsOf w 31 28 = 4) ∧ w.getLsbD 26 = true) ∨
    ((bitsOf w 31 28 = 3 ∨ bitsOf w 31 28 = 4) ∧ w.getLsbD 27 = true) ∨
    (bitsOf w 31 28 = 4 ∧ (bitsOf w 23 16 ≠ 0 ∨ bitsOf w 15 0 ≠ 0)) := by
  by_cases hres : w.getLsbD 25 = true ∨ w.getLsbD 24 = true
  · exact iff_of_true (decode_of_reserved hres) (.inr (.inr (or_assoc.mp (.inl hres))))
  · obtain ⟨h25, h24⟩ := not_or.mp hres
    have htop := bitsOf_top w
    rw [decode_eq_error_iff_bitsOf]
    simp only [h25, h24, false_or, Bool.toNat_false, Nat.mul_zero, Nat.add_zero, Bool.false_eq_true] at htop ⊢
    simpa only [Bool.toNat_eq_one] using noRow_iff_listed (Bool.toNat_lt _) (Bool.toNat_lt _) htop

/-- The completion of an illegal word is the error entry with ILLEGAL_CMD (R88, R210). -/
theorem complete_of_illegal {s : State} (h : decode s.cmd = .error .illegalCmd) :
    complete s = .next { s with status := 0x106#32 } := by
  simp only [complete, h, State.raise, Status.violation_eq]
  rfl

/-- Settles O4: the list of R88 is what selects no row; the issue takes any word, and the completion of one that does
not decode is the error entry. -/
theorem illegalWordsAreThoseListed : Obligations.IllegalWordsAreThoseListed := by
  refine ⟨decode_eq_error_iff_listed, by decide, by decide, fun w s s0 _ hb hm => ?_, fun s s0 hd hb hm => ?_⟩
  · rw [step_host_idle hm rfl hb, State.perform_writeCmd, State.issue_eq]
  · rw [step_block_busy hm hb, complete_of_illegal (hm.cmd_eq ▸ hd)]

end Sys2Proof.Machine
end

section
/-! PROOFS. The statements about the single-byte extractor (spec/40_byte_extractor.md): the rules of XBYTE (R112) and
XBYTE.D (R114). -/

namespace Sys2Proof.Machine

/-! ## The two completions of a scalar command -/

/-- The error entry with STATUS as the word R210 gives. -/
theorem State.raise_eq (s : State) (c : Cause) :
    s.raise c = { s with status := 0x6#32 + 256#32 * c.code.setWidth 32 } := by
  rw [State.raise, Status.violation_eq]

/-- A scalar completion writes RESULT and STATUS alone (R37). -/
theorem State.scalarFrame_returnScalar (s : State) (v : Nat) : ScalarFrame s (s.returnScalar v) where
  input := ⟨rfl, rfl, rfl, fun _ => rfl, rfl, rfl, rfl⟩
  out := ⟨fun _ => rfl, rfl⟩

/-- What a scalar completion leaves: a value that fits RESULT, STATUS 0x12, and the frame (R23, R37). -/
theorem State.returnScalar_spec {v : Nat} (s : State) (hv : v < 2 ^ 53) :
    (s.returnScalar v).result.toNat = v ∧ (s.returnScalar v).status = 0x12#32 ∧ ScalarFrame s (s.returnScalar v) :=
  ⟨Nat.mod_eq_of_lt hv, Status.doneScalar_eq, s.scalarFrame_returnScalar v⟩

/-! ## The span as a result (R111) -/

/-- A span of at most eight bits fits RESULT. -/
theorem xbyte_lt_result (b : Byte) (o : Int) {n : Int} (hn : n ≤ 8) : xbyte b o n < 2 ^ 53 :=
  (xbyte_lt b o n).trans_le (Nat.pow_le_pow_right (by decide) (by omega))

/-- The span from the offset to the end of the byte is not shifted. -/
theorem xbyte_toEnd (b : Byte) (o : Int) : xbyte b o (8 - o) = b.toNat &&& (2 ^ (8 - o).toNat - 1) := by
  rw [xbyte, sub_self, Int.toNat_zero, Nat.shiftRight_zero]

/-! ## XBYTE, one lemma per outcome (R112) -/

section
variable {b : Byte} {o n : Int} {s : State}

theorem exec_xbyte_of_offDomain (ho : o < 0 ∨ o > 7) : exec (.xbyte b o n) s = .next (s.raise .offDomain) := by
  rw [exec, execXbyte, if_pos ho]

theorem exec_xbyte_of_lenDomain (h0 : 0 ≤ o) (h7 : o ≤ 7) (hn : n < 0) :
    exec (.xbyte b o n) s = .next (s.raise .lenDomain) := by
  rw [exec, execXbyte, if_neg (by omega), if_pos hn]

theorem exec_xbyte_of_byteOverflow (h0 : 0 ≤ o) (h7 : o ≤ 7) (hn : 0 ≤ n) (hsum : o + n > 8) :
    exec (.xbyte b o n) s = .next (s.raise .byteOverflow) := by
  rw [exec, execXbyte, if_neg (by omega), if_neg (by omega), if_pos hsum]

theorem exec_xbyte_of_inside (h0 : 0 ≤ o) (h7 : o ≤ 7) (hn : 0 ≤ n) (hsum : o + n ≤ 8) :
    exec (.xbyte b o n) s = .next (s.returnScalar (xbyte b o n)) := by
  rw [exec, execXbyte, if_neg (by omega), if_neg (by omega), if_neg (by omega)]

end

/-- XBYTE.D is XBYTE with length 8 - offset: after the offset check that length is neither negative nor too long
(R114). -/
theorem exec_xbyteD_eq (b : Byte) (o : Int) (s : State) : exec (.xbyteD b o) s = exec (.xbyte b o (8 - o)) s := by
  by_cases ho : o < 0 ∨ o > 7
  · rw [exec_xbyte_of_offDomain ho, exec, execXbyteD, if_pos ho]
  · rw [exec_xbyte_of_inside (by omega) (by omega) (by omega) (by omega), exec, execXbyteD, if_neg ho]

/-- Settles O25, by the outcome of each check; a span has at most eight bits, so RESULT holds it whole. -/
theorem xbyteFollowsItsRule : Obligations.XbyteFollowsItsRule := by
  refine fun b o n s => ⟨fun ho => ?offDomain, fun h0 h7 hn => ?lenDomain, fun h0 h7 hn hsum => ?byteOverflow,
    fun h0 h7 hn hsum => ?inside, rfl⟩
  case offDomain => rw [exec_xbyte_of_offDomain ho, State.raise_eq]; rfl
  case lenDomain => rw [exec_xbyte_of_lenDomain h0 h7 hn, State.raise_eq]; rfl
  case byteOverflow => rw [exec_xbyte_of_byteOverflow h0 h7 hn hsum, State.raise_eq]; rfl
  case inside => exact ⟨_, exec_xbyte_of_inside h0 h7 hn hsum, s.returnScalar_spec (xbyte_lt_result b o (by omega))⟩

/-- Settles O26: XBYTE.D is XBYTE with length 8 - offset, whose span is the byte's low 8 - offset bits. -/
theorem xbyteDFollowsItsRule : Obligations.XbyteDFollowsItsRule := by
  refine fun b o s => ⟨fun ho => ?offDomain, fun h0 h7 => ?inside, exec_xbyteD_eq b o s, rfl⟩
  case offDomain => rw [exec_xbyteD_eq, exec_xbyte_of_offDomain ho, State.raise_eq]; rfl
  case inside =>
    rw [exec_xbyteD_eq, ← xbyte_toEnd]
    exact ⟨_, exec_xbyte_of_inside h0 h7 (by omega) (by omega), s.returnScalar_spec (xbyte_lt_result b o (by omega))⟩

end Sys2Proof.Machine
end

section
/-! PROOFS. The statements about the Bit Reader (spec/41_bit_reader.md): the rules of RDBITS (R131) and RDBITS.L (R132),
reads of 0 bits (R143) and strict reads before the start (R144). -/

namespace Sys2Proof.Machine

/-! ## Checks and completions shared by the commands -/

theorem State.lenOverCapacity_eq_true {s : State} (h : s.cfg.nbytesMax < s.len.toNat) : s.lenOverCapacity = true :=
  decide_eq_true h

theorem State.lenOverCapacity_ne_true {s : State} (h : s.len.toNat ≤ s.cfg.nbytesMax) : ¬s.lenOverCapacity = true := by
  rw [State.lenOverCapacity, decide_eq_true_eq]
  exact h.not_gt

/-- The error entry writes STATUS alone (R210). -/
theorem State.errorFrame_raise (s : State) (c : Cause) : ErrorFrame s (s.raise c) where
  input := ⟨rfl, rfl, rfl, fun _ => rfl, rfl, rfl, rfl⟩
  out := ⟨fun _ => rfl, rfl⟩
  result := rfl

/-- A read of at most 53 bits fits RESULT. -/
theorem readBits_lt_result (rd : Int → Byte) (off : Int) {n : Int} (hn : n ≤ 53) : readBits rd off n.toNat < 2 ^ 53 :=
  (readBits_lt rd off n.toNat).trans_le (Nat.pow_le_pow_right (by decide) (by omega))

/-- What a scalar completion with 0 leaves. -/
theorem State.returnScalar_zero_spec (s : State) :
    (s.returnScalar 0).result = 0#53 ∧ (s.returnScalar 0).status = 0x12#32 ∧ ScalarFrame s (s.returnScalar 0) :=
  ⟨rfl, Status.doneScalar_eq, s.scalarFrame_returnScalar 0⟩

/-! ## RDBITS and RDBITS.L, one lemma per outcome (R131, R132) -/

section
variable {off n : Int} {s : State}

theorem exec_rdbits_of_bufCap (hcap : s.cfg.nbytesMax < s.len.toNat) :
    exec (.rdbits off n) s = .next (s.raise .bufCap) := by
  rw [exec, execRdbits, if_pos (State.lenOverCapacity_eq_true hcap)]

theorem exec_rdbitsL_of_bufCap (hcap : s.cfg.nbytesMax < s.len.toNat) :
    exec (.rdbitsL off n) s = .next (s.raise .bufCap) := by
  rw [exec, execRdbitsL, if_pos (State.lenOverCapacity_eq_true hcap)]

variable (hlen : s.len.toNat ≤ s.cfg.nbytesMax)
include hlen

theorem exec_rdbits_of_lenDomain (hn : n < 0 ∨ n > 53) : exec (.rdbits off n) s = .next (s.raise .lenDomain) := by
  rw [exec, execRdbits, if_neg (State.lenOverCapacity_ne_true hlen), if_pos hn]

theorem exec_rdbitsL_of_lenDomain (hn : n < 0 ∨ n > 53) : exec (.rdbitsL off n) s = .next (s.raise .lenDomain) := by
  rw [exec, execRdbitsL, if_neg (State.lenOverCapacity_ne_true hlen), if_pos hn]

variable (h0 : 0 ≤ n) (h53 : n ≤ 53)
include h0 h53

theorem exec_rdbits_of_offNeg (hoff : off < 0) : exec (.rdbits off n) s = .next (s.raise .offNeg) := by
  rw [exec, execRdbits, if_neg (State.lenOverCapacity_ne_true hlen), if_neg (by omega), if_pos hoff]

theorem exec_rdbits_of_pastEnd (hoff : 0 ≤ off) (hend : off + n > 8 * (s.len.toNat : Int)) :
    exec (.rdbits off n) s = .next (s.raise .pastEnd) := by
  rw [exec, execRdbits, if_neg (State.lenOverCapacity_ne_true hlen), if_neg (by omega), if_neg (by omega), if_pos hend]

theorem exec_rdbits_of_inside (hoff : 0 ≤ off) (hend : off + n ≤ 8 * (s.len.toNat : Int)) :
    exec (.rdbits off n) s = .next (s.returnScalar (readBits (memRead s) off n.toNat)) := by
  rw [exec, execRdbits, if_neg (State.lenOverCapacity_ne_true hlen), if_neg (by omega), if_neg (by omega),
    if_neg (by omega)]

theorem exec_rdbitsL_of_inDomain :
    exec (.rdbitsL off n) s = .next (s.returnScalar (readBits (memReadLoose s) off n.toNat)) := by
  rw [exec, execRdbitsL, if_neg (State.lenOverCapacity_ne_true hlen), if_neg (by omega)]

end

/-- Settles O30, by the outcome of each check; a read has at most 53 bits, so RESULT holds it whole. -/
theorem rdbitsFollowsItsRule : Obligations.RdbitsFollowsItsRule := by
  refine fun off n s => ⟨fun hcap => ?bufCap, fun hlen hn => ?lenDomain, fun hlen h0 h53 hoff => ?offNeg,
    fun hlen h0 h53 hoff hend => ?pastEnd, fun hlen h0 h53 hoff hend => ?inside, rfl⟩
  case bufCap => rw [exec_rdbits_of_bufCap hcap, State.raise_eq]; rfl
  case lenDomain => rw [exec_rdbits_of_lenDomain hlen hn, State.raise_eq]; rfl
  case offNeg => rw [exec_rdbits_of_offNeg hlen h0 h53 hoff, State.raise_eq]; rfl
  case pastEnd => rw [exec_rdbits_of_pastEnd hlen h0 h53 hoff hend, State.raise_eq]; rfl
  case inside =>
    exact ⟨_, exec_rdbits_of_inside hlen h0 h53 hoff hend, s.returnScalar_spec (readBits_lt_result _ off h53)⟩

/-- Settles O31, by the outcome of each check; the loose read has no check of the offset. -/
theorem rdbitsLFollowsItsRule : Obligations.RdbitsLFollowsItsRule := by
  refine fun off n s => ⟨fun hcap => ?bufCap, fun hlen hn => ?lenDomain, fun hlen h0 h53 => ?inDomain, rfl⟩
  case bufCap => rw [exec_rdbitsL_of_bufCap hcap, State.raise_eq]; rfl
  case lenDomain => rw [exec_rdbitsL_of_lenDomain hlen hn, State.raise_eq]; rfl
  case inDomain => exact ⟨_, exec_rdbitsL_of_inDomain hlen h0 h53, s.returnScalar_spec (readBits_lt_result _ off h53)⟩

/-- Settles O37: a read of 0 bits is the empty sum; in strict mode the offset alone decides which check fails. -/
theorem zeroBitReadsReturnZero : Obligations.ZeroBitReadsReturnZero := by
  refine fun off s hlen => ⟨fun hoff hend => ?inside, fun hout => ?outside, ?loose⟩
  case inside =>
    have hexec := exec_rdbits_of_inside (n := 0) hlen le_rfl (by decide) hoff (by omega)
    rw [Int.toNat_zero, readBits_zero] at hexec
    exact ⟨_, hexec, s.returnScalar_zero_spec⟩
  case outside =>
    by_cases hoff : off < 0
    · exact ⟨_, exec_rdbits_of_offNeg hlen le_rfl (by decide) hoff, Status.err_violation _⟩
    · exact ⟨_, exec_rdbits_of_pastEnd hlen le_rfl (by decide) (by omega) (by omega), Status.err_violation _⟩
  case loose =>
    have hexec := exec_rdbitsL_of_inDomain (off := off) (n := 0) hlen le_rfl (by decide)
    rw [Int.toNat_zero, readBits_zero] at hexec
    exact ⟨_, hexec, s.returnScalar_zero_spec⟩

/-- Settles O38: the check of the offset comes before the check of the end, so nothing but its sign matters. -/
theorem strictReadBeforeTheStartFails : Obligations.StrictReadBeforeTheStartFails := fun _ _ s hlen hoff h0 h53 =>
  ⟨_, exec_rdbits_of_offNeg hlen h0 h53 hoff, Status.err_violation _, Status.cause_violation _, s.errorFrame_raise _⟩

end Sys2Proof.Machine
end

section
/-! PROOFS. The statements about the Bit Unpacker (spec/42_bit_unpacker.md): the rule of UNPACK (R161) and its output
length (R162). -/

namespace Sys2Proof.Machine

/-! ## The completion of a sequence command -/

/-- A sequence completion writes OUT, OUT_LEN and STATUS alone (R37). -/
theorem State.sequenceFrame_returnSequence (s : State) (bytes : List Byte) :
    SequenceFrame s (s.returnSequence bytes) where
  input := ⟨rfl, rfl, rfl, fun _ => rfl, rfl, rfl, rfl⟩
  result := rfl

section
variable {bytes : List Byte} (s : State) (h : bytes.length < 2 ^ 32)
include h

/-- OUT_LEN holds the length of a sequence that its 32 bits can hold (R31). -/
theorem State.outLen_toNat_returnSequence : (s.returnSequence bytes).outLen.toNat = bytes.length :=
  Nat.mod_eq_of_lt h

/-- After a sequence completion the bytes of OUT with a specified value are those of the sequence (R30). -/
theorem State.outValue?_returnSequence (j : Nat) : (s.returnSequence bytes).outValue? j = bytes[j]? := by
  have hrk : Status.rk (s.returnSequence bytes).status = ResultKind.sequence.bits := Status.rk_doneSequence
  rw [State.outValue?, s.outLen_toNat_returnSequence h, State.returnSequence_out, Memory.find?_ofBytes]
  by_cases hj : j < bytes.length
  · rw [if_pos ⟨hrk, hj⟩]
  · rw [if_neg fun hboth => hj hboth.2, List.getElem?_eq_none (not_lt.mp hj)]

end

/-! ## The groups (R165) -/

@[simp] theorem length_groups (s : State) (bits off : Int) (n : Nat) : (groups s bits off n).length = n := by
  simp [groups]

/-- A group of at most eight bits fits its byte. -/
theorem group_lt_byte (s : State) {bits : Int} (hbits : bits ≤ 8) (off : Int) (i : Nat) : group s bits off i < 2 ^ 8 :=
  (readBits_lt _ _ bits.toNat).trans_le (Nat.pow_le_pow_right (by decide) (by omega))

/-- The i-th byte of the first `n` groups is the i-th group. -/
theorem getElem?_groups (s : State) {bits : Int} (hbits : bits ≤ 8) (off : Int) {i n : Nat} (hi : i < n) :
    ∃ v, (groups s bits off n)[i]? = some v ∧ v.toNat = group s bits off i :=
  ⟨BitVec.ofNat 8 (group s bits off i), by simp [groups, hi], Nat.mod_eq_of_lt (group_lt_byte s hbits off i)⟩

/-- What a completion with `n` groups leaves: their number in OUT_LEN, OUT[i] the i-th group for i below `n` and
unspecified from `n` on, STATUS 0x22, and the frame (R161, R30). -/
theorem State.returnSequence_groups_spec (s : State) {bits : Int} (hbits : bits ≤ 8) (off : Int) {n : Nat}
    (hn : n < 2 ^ 32) :
    (s.returnSequence (groups s bits off n)).outLen.toNat = n ∧
    (∀ i, i < n → ∃ v, (s.returnSequence (groups s bits off n)).outValue? i = some v ∧
      v.toNat = group s bits off i) ∧
    (∀ j, n ≤ j → (s.returnSequence (groups s bits off n)).outValue? j = none) ∧
    (s.returnSequence (groups s bits off n)).status = 0x22#32 ∧
    SequenceFrame s (s.returnSequence (groups s bits off n)) := by
  have hlen : (groups s bits off n).length = n := length_groups s bits off n
  refine ⟨?outLen, fun i hi => ?value, fun j hj => ?unspecified,
    Status.doneSequence_eq, s.sequenceFrame_returnSequence _⟩
  case outLen => rw [s.outLen_toNat_returnSequence (hlen.trans_lt hn), hlen]
  case value => simpa only [s.outValue?_returnSequence (hlen.trans_lt hn)] using getElem?_groups s hbits off hi
  case unspecified =>
    rw [s.outValue?_returnSequence (hlen.trans_lt hn), List.getElem?_eq_none (hlen.trans_le hj)]

/-! ## UNPACK, one lemma per outcome (R161) -/

section
variable {bits off : Int} {s : State}

theorem exec_unpack_of_bufCap (hcap : s.cfg.nbytesMax < s.len.toNat) :
    exec (.unpack bits off) s = .next (s.raise .bufCap) := by
  rw [exec, execUnpack, if_pos (State.lenOverCapacity_eq_true hcap)]

variable (hlen : s.len.toNat ≤ s.cfg.nbytesMax)
include hlen

theorem exec_unpack_of_bitsDomain (hbits : bits < 1 ∨ bits > 8) :
    exec (.unpack bits off) s = .next (s.raise .bitsDomain) := by
  rw [exec, execUnpack, if_neg (State.lenOverCapacity_ne_true hlen), if_pos hbits]

variable (h1 : 1 ≤ bits) (h8 : bits ≤ 8)
include h1 h8

theorem exec_unpack_of_outRange (hN : groupCount s bits off < 0 ∨ groupCount s bits off > (s.cfg.noutMax : Int)) :
    exec (.unpack bits off) s = .next (s.raise .outRange) := by
  rw [exec, execUnpack, if_neg (State.lenOverCapacity_ne_true hlen), if_neg (by omega), if_pos hN]

theorem exec_unpack_of_fits {N : Nat} (hN : groupCount s bits off = N) (hout : N ≤ s.cfg.noutMax) :
    exec (.unpack bits off) s = .next (s.returnSequence (groups s bits off N)) := by
  rw [exec, execUnpack, if_neg (State.lenOverCapacity_ne_true hlen), if_neg (by omega), if_neg (by omega), hN,
    Int.toNat_natCast]

end

/-- A completion without an error is no error entry. -/
theorem exec_raise_not_success {i : Instr} {s t : State} {c : Cause} (h : exec i s = .next (s.raise c))
    (ht : exec i s = .next t) (herr : Status.err t.status = false) : False := by
  obtain rfl : s.raise c = t := by simpa [h] using ht
  simp at herr

/-- An UNPACK without an error passed its checks and returned its groups. -/
theorem exec_unpack_success {bits off : Int} {s t : State} (ht : exec (.unpack bits off) s = .next t)
    (herr : Status.err t.status = false) :
    bits ≤ 8 ∧ ∃ N : Nat, groupCount s bits off = N ∧ N ≤ s.cfg.noutMax ∧
      t = s.returnSequence (groups s bits off N) := by
  by_cases hcap : s.cfg.nbytesMax < s.len.toNat
  · exact (exec_raise_not_success (exec_unpack_of_bufCap hcap) ht herr).elim
  have hlen := not_lt.mp hcap
  by_cases hbits : bits < 1 ∨ bits > 8
  · exact (exec_raise_not_success (exec_unpack_of_bitsDomain hlen hbits) ht herr).elim
  have h1 : 1 ≤ bits := by omega
  have h8 : bits ≤ 8 := by omega
  by_cases hN : groupCount s bits off < 0 ∨ groupCount s bits off > (s.cfg.noutMax : Int)
  · exact (exec_raise_not_success (exec_unpack_of_outRange hlen h1 h8 hN) ht herr).elim
  obtain ⟨N, hcount⟩ := Int.eq_ofNat_of_zero_le (a := groupCount s bits off) (by omega)
  have hout : N ≤ s.cfg.noutMax := by omega
  have hexec := exec_unpack_of_fits hlen h1 h8 hcount hout
  exact ⟨h8, N, hcount, hout, by simpa [hexec] using ht.symm⟩

/-- Settles O39, by the outcome of each check; a group has at most eight bits, so its byte holds it whole, and the
capacity of OUT is below 2^32, so OUT_LEN holds N. -/
theorem unpackFollowsItsRule : Obligations.UnpackFollowsItsRule := by
  refine fun bits off s => ⟨fun hcap => ?bufCap, fun hlen hbits => ?bitsDomain, fun hlen h1 h8 hN => ?outRange,
    fun N ⟨_, _, hwidth⟩ hlen h1 h8 hN hout => ?fits, rfl⟩
  case bufCap => rw [exec_unpack_of_bufCap hcap, State.raise_eq]; rfl
  case bitsDomain => rw [exec_unpack_of_bitsDomain hlen hbits, State.raise_eq]; rfl
  case outRange => rw [exec_unpack_of_outRange hlen h1 h8 hN, State.raise_eq]; rfl
  case fits =>
    exact ⟨_, exec_unpack_of_fits hlen h1 h8 hN hout, s.returnSequence_groups_spec h8 off (hout.trans_lt hwidth)⟩

/-- N is negative exactly when -1 groups would already cover the stream from the offset on (R162). -/
theorem groupCount_neg_iff {s : State} {bits off : Int} (hbits : 0 < bits) :
    groupCount s bits off < 0 ↔ off ≥ 8 * (s.len.toNat : Int) + bits :=
  calc groupCount s bits off < 0
    _ ↔ groupCount s bits off ≤ -1 := by omega
    _ ↔ 8 * (s.len.toNat : Int) - off ≤ -1 * bits := ceilDiv_le_iff hbits
    _ ↔ off ≥ 8 * (s.len.toNat : Int) + bits := by omega

/-- Settles O40: N is the least number of groups that covers the stream, as `ceilDiv` is the least quotient. -/
theorem outputLengthOfUnpack : Obligations.OutputLengthOfUnpack := by
  intro s bits off h1 _
  have hbits : 0 < bits := h1
  refine ⟨le_ceilDiv_mul hbits, fun q => (ceilDiv_le_iff hbits).mpr, groupCount_neg_iff hbits,
    fun t ⟨_, _, hwidth⟩ ht herr => ?outLen⟩
  obtain ⟨h8, N, hN, hout, rfl⟩ := exec_unpack_success ht herr
  obtain ⟨hlen, -⟩ := s.returnSequence_groups_spec h8 off (hout.trans_lt hwidth)
  rw [hlen, hN]

end Sys2Proof.Machine
end

section
/-! PROOFS. The statements about the Crockford encoder (spec/43_crockford_encoder.md): the rule of CROCK (R180). -/

namespace Sys2Proof.Machine

/-! ## The text (R180) -/

@[simp] theorem length_crockText (s : State) : (crockText s).length = 34 := by
  simp [crockText]

/-- The i-th character of the text is the alphabet's entry for the i-th group of UNPACK 5, -2. -/
theorem getElem?_crockText (s : State) {i : Nat} (hi : i < 34) :
    (crockText s)[i]? = some (alpha (group s 5 (-2) i)) := by
  simp [crockText, hi]

/-- The i-th group of five bits from offset -2 on, as the read it is. -/
theorem group_five_eq (s : State) (i : Nat) :
    group s 5 (-2) i = readBits (memReadLoose s) (-2 + 5 * (i : Int)) 5 := by
  rw [group, Int.mul_comm]
  rfl

/-- After a completion with the text, OUT[i] is its i-th character and the bytes from 34 on are unspecified (R30). -/
theorem State.outValue?_returnSequence_crockText (s : State) (j : Nat) :
    (s.returnSequence (crockText s)).outValue? j = (crockText s)[j]? :=
  s.outValue?_returnSequence (by rw [length_crockText]; decide) j

/-- What a completion with the text leaves: 34 in OUT_LEN, the characters in OUT[0..33] and nothing specified from 34
on, STATUS 0x22, and the frame (R180, R30). -/
theorem State.returnSequence_crockText_spec (s : State) :
    (s.returnSequence (crockText s)).outLen = 34#32 ∧
    (∀ i : Nat, i < 34 → (s.returnSequence (crockText s)).outValue? i =
      some (alpha (readBits (memReadLoose s) (-2 + 5 * (i : Int)) 5))) ∧
    (∀ j, 34 ≤ j → (s.returnSequence (crockText s)).outValue? j = none) ∧
    (s.returnSequence (crockText s)).status = 0x22#32 ∧
    SequenceFrame s (s.returnSequence (crockText s)) := by
  refine ⟨?outLen, fun i hi => ?value, fun j hj => ?unspecified,
    Status.doneSequence_eq, s.sequenceFrame_returnSequence _⟩
  case outLen => rw [State.returnSequence_outLen, length_crockText]
  case value => rw [s.outValue?_returnSequence_crockText, getElem?_crockText s hi, group_five_eq]
  case unspecified =>
    rw [s.outValue?_returnSequence_crockText, List.getElem?_eq_none ((length_crockText s).trans_le hj)]

/-! ## CROCK, one lemma per outcome (R180) -/

section
variable {s : State}

theorem exec_crock_of_bufCap (hcap : s.cfg.nbytesMax < s.len.toNat) : exec .crock s = .next (s.raise .bufCap) := by
  rw [exec, execCrock, if_pos (State.lenOverCapacity_eq_true hcap)]

variable (hlen : s.len.toNat ≤ s.cfg.nbytesMax)
include hlen

theorem exec_crock_of_badIdLen (hid : s.len.toNat ≠ 21) : exec .crock s = .next (s.raise .badIdLen) := by
  rw [exec, execCrock, if_neg (State.lenOverCapacity_ne_true hlen), if_pos hid]

theorem exec_crock_of_identifier (hid : s.len.toNat = 21) :
    exec .crock s = .next (s.returnSequence (crockText s)) := by
  rw [exec, execCrock, if_neg (State.lenOverCapacity_ne_true hlen), if_neg (not_not.mpr hid)]

end

/-- Settles O44, by the outcome of each check; on an identifier of 21 bytes the completion returns the text, whose
characters are the alphabet's entries for the 34 groups. -/
theorem crockFollowsItsRule : Obligations.CrockFollowsItsRule := by
  refine fun s => ⟨fun hcap => ?bufCap, fun hlen hid => ?badIdLen,
    fun hlen hid => ⟨_, exec_crock_of_identifier hlen hid, s.returnSequence_crockText_spec⟩, crock_word⟩
  case bufCap => rw [exec_crock_of_bufCap hcap, State.raise_eq]; rfl
  case badIdLen => rw [exec_crock_of_badIdLen hlen hid, State.raise_eq]; rfl

end Sys2Proof.Machine
end

section
/-! PROOFS. The statement about error entry (spec/60_exceptions.md R210). -/

namespace Sys2Proof.Machine

/-- A command that completes with ERR = 1 made the error entry, with one of the causes it can raise (R202, R210). -/
theorem exec_error_eq_raise {i : Instr} {s t : State} (h : exec i s = .next t) (herr : Status.err t.status = true) :
    ∃ c, c ∈ possibleCauses i ∧ t = s.raise c := by
  obtain ⟨c, hmem, hc⟩ | ⟨-, v, hc⟩ | ⟨-, bytes, hc, -⟩ := exec_cases i s <;>
    obtain rfl := Host.Outcome.next.inj (hc.symm.trans h)
  · exact ⟨c, hmem, rfl⟩
  · exact absurd herr (by simp)
  · exact absurd herr (by simp)

/-- Settles O22: a command's only completion with ERR = 1 is the error entry, which writes STATUS alone. -/
theorem errorEntryChangesOnlyStatus : Obligations.ErrorEntryChangesOnlyStatus := by
  intro i s t h herr
  obtain ⟨c, -, rfl⟩ := exec_error_eq_raise h herr
  have hcause : Status.cause (s.raise c).status ≠ 0#4 := by simpa using c.code_ne_zero
  exact ⟨Status.busy_violation c, Status.done_violation c, Status.rk_violation c, hcause, s.errorFrame_raise c⟩

end Sys2Proof.Machine
end

section
/-! PROOFS. The statement about Reset (spec/70_reset_and_hazards.md R243). -/

namespace Sys2Proof.Machine

/-- Reset is in range and permitted in every state, a command in flight or not (R240, R250). -/
theorem hostAct_reset (s : State) : hostAct .reset s = .next s.hostReset := by
  cases hb : s.busy with
  | true => exact hostAct_busy rfl hb
  | false => exact hostAct_idle rfl hb

/-- A completion sets DONE (R23). -/
theorem complete_done {s t : State} (h : complete s = .next t) : Status.done t.status = true := by
  obtain ⟨hst, -⟩ | ⟨hst, -⟩ | ⟨c, hst⟩ := complete_status h <;> rw [hst]
  · exact Status.done_doneScalar
  · exact Status.done_doneSequence
  · exact Status.done_violation c

/-- A command in flight ends by its completion or by Reset (R243): STATUS does not change on its own, and an issue needs
an idle block. -/
theorem step_ends_command {s t : State} (hb : s.busy = true) (h : step s = .next t) (ht : t.busy = false) :
    Status.done t.status = true ∨ ∃ s0, HostMoves .reset s s0 := by
  obtain hst | ⟨w, s0, -, hidle, -⟩ | ⟨s0, -, -, hc⟩ | ⟨s0, hm, -⟩ := step_status_cases h
  · have hsame : t.busy = s.busy := by rw [State.busy, State.busy, hst]
    simp [hsame, hb] at ht
  · simp [hb] at hidle
  · exact .inl (complete_done hc)
  · exact .inr ⟨s0, hm⟩

/-- Settles O12: Reset has its effect in every state and leaves RK = 0, so no result has a value; any other step that
ends a command is its completion, which sets DONE. -/
theorem resetAbandonsTheCommand : Obligations.ResetAbandonsTheCommand := by
  refine ⟨fun s s0 hm => ?reset, fun s t hb h ht hdone => ?onlyReset⟩
  case reset =>
    have hstep : step s = .next s0.hostReset := (step_host hm).trans (hostAct_reset s0)
    obtain ⟨hlo, hhi, hlen⟩ := s0.hostReset.regValue?_of_rk_zero Status.rk_zero
    have hout : ∀ j, s0.hostReset.outValue? j = none := State.outValue?_of_rk_ne (by simp)
    exact ⟨_, hstep, rfl, rfl, rfl, Memory.read_nil, hlo, hhi, hlen, hout, Status.busy_zero⟩
  case onlyReset =>
    exact (step_ends_command hb h ht).resolve_left (by simp [hdone])

end Sys2Proof.Machine
end

section
/-! PROOFS. The statement that decoding and encoding are inverse (spec/30_encoding.md R91). -/

namespace Sys2Proof

/-- A legal word has the fixed fields of one row and decodes to that row's command (R85, R91). -/
theorem decode_ok_cases {w : Word} {i : Instr} (h : decode w = .ok i) :
    (field8 w 24 = 0x10#8 ∧ i = .xbyte (field8 w 16) (field8 w 0).toInt (field8 w 8).toInt) ∨
    (field8 w 24 = 0x14#8 ∧ field8 w 8 = 0#8 ∧ i = .xbyteD (field8 w 16) (field8 w 0).toInt) ∨
    (field8 w 24 = 0x20#8 ∧ i = .rdbits (field16 w).toInt (field8 w 16).toInt) ∨
    (field8 w 24 = 0x28#8 ∧ i = .rdbitsL (field16 w).toInt (field8 w 16).toInt) ∨
    (field8 w 24 = 0x30#8 ∧ i = .unpack (field8 w 16).toInt (field16 w).toInt) ∨
    (w = 0x40000000#32 ∧ i = .crock) := by
  unfold decode at h
  split_ifs at h with hx hd hr hl hu hc <;> cases h
  · exact .inl ⟨hx, rfl⟩
  · exact .inr (.inl ⟨hd.1, hd.2, rfl⟩)
  · exact .inr (.inr (.inl ⟨hr, rfl⟩))
  · exact .inr (.inr (.inr (.inl ⟨hl, rfl⟩)))
  · exact .inr (.inr (.inr (.inr (.inl ⟨hu, rfl⟩))))
  · exact .inr (.inr (.inr (.inr (.inr ⟨hc, rfl⟩))))

/-- A format X word whose operand fields are read as integers is laid out again from them. -/
theorem formatX_ofInt_toInt (w : Word) :
    formatX (field8 w 24) (field8 w 16) (BitVec.ofInt 8 (field8 w 8).toInt) (BitVec.ofInt 8 (field8 w 0).toInt) =
      w := by
  rw [BitVec.ofInt_toInt, BitVec.ofInt_toInt, formatX_fields]

/-- A format R word whose operand fields are read as integers is laid out again from them. -/
theorem formatR_ofInt_toInt (w : Word) :
    formatR (field8 w 24) (BitVec.ofInt 8 (field8 w 16).toInt) (BitVec.ofInt 16 (field16 w).toInt) = w := by
  rw [BitVec.ofInt_toInt, BitVec.ofInt_toInt, formatR_fields]

/-- Every word that decodes to a command is that command's encoding (R91). -/
theorem encode_of_decode {w : Word} {i : Instr} (h : decode w = .ok i) : encode i = w := by
  obtain ⟨htop, rfl⟩ | ⟨htop, hn, rfl⟩ | ⟨htop, rfl⟩ | ⟨htop, rfl⟩ | ⟨htop, rfl⟩ | ⟨rfl, rfl⟩ := decode_ok_cases h
  · rw [encode, ← htop, formatX_ofInt_toInt]
  · rw [encode, ← htop, ← hn, BitVec.ofInt_toInt, formatX_fields]
  · rw [encode, ← htop, formatR_ofInt_toInt]
  · rw [encode, ← htop, formatR_ofInt_toInt]
  · rw [encode, ← htop, formatR_ofInt_toInt]
  · exact crock_word

/-- Every word that decodes to a command decodes to a well-formed one (R84). -/
theorem wellFormed_of_decode {w : Word} {i : Instr} (h : decode w = .ok i) : i.wellFormed = true := by
  have h8 := fitsSigned8_toInt
  have h16 := fitsSigned16_toInt
  obtain ⟨-, rfl⟩ | ⟨-, -, rfl⟩ | ⟨-, rfl⟩ | ⟨-, rfl⟩ | ⟨-, rfl⟩ | ⟨-, rfl⟩ := decode_ok_cases h
  · exact Bool.and_eq_true_iff.mpr ⟨h8 _, h8 _⟩
  · exact h8 _
  · exact Bool.and_eq_true_iff.mpr ⟨h16 _, h8 _⟩
  · exact Bool.and_eq_true_iff.mpr ⟨h16 _, h8 _⟩
  · exact Bool.and_eq_true_iff.mpr ⟨h8 _, h16 _⟩
  · rfl

/-- Settles O3: a legal word is its fields, which fit the operands they are read as; the other way is
`decode_encode`. -/
theorem decodeAndEncodeAreInverse : Obligations.DecodeAndEncodeAreInverse :=
  ⟨fun _ _ h => ⟨encode_of_decode h, wellFormed_of_decode h⟩, fun _ => decode_encode⟩

end Sys2Proof
end

section
/-! PROOFS. The statements about every step (spec/10_state.md): the invariant (R23, R24, R29, R30, R39, R40, R43), the
capacities (spec/00_scope.md R7), the rules of STATUS (R24) and the control states (R42). -/

namespace Sys2Proof.Machine

/-! ## The invariant, by the operations on the state -/

/-- Of a state with RK = 0 the invariant says nothing about the command and the results. -/
theorem State.inv_of_rk_zero {s : State} (hcfg : s.cfg.Wf) (hbufWf : Memory.wf s.buf = true)
    (hbufBelow : Memory.below s.cfg.nbytesMax s.buf = true) (houtRising : Memory.rising s.out = true)
    (houtBelow : Memory.below s.cfg.noutMax s.out = true) (hstatus : s.status ∈ Status.reachable)
    (hrk : Status.rk s.status = 0#2) : s.Inv where
  cfg := hcfg
  bufWf := hbufWf
  bufBelow := hbufBelow
  outRising := houtRising
  outBelow := houtBelow
  status := hstatus
  scalar h := by simp [hrk] at h
  sequence h := by simp [hrk] at h
  outLen h := by simp [hrk] at h
  outListed h := by simp [hrk] at h

theorem State.inv_resetWith {cfg : Config} (h : cfg.Wf) : (State.resetWith cfg).Inv :=
  State.inv_of_rk_zero h rfl rfl rfl rfl Status.reachable_zero Status.rk_zero

theorem Config.wf_suggested : Config.suggested.Wf := by decide

/-- Settles O13: after reset BUF and OUT list nothing and RK = 0. -/
theorem invariantHoldsAfterReset : Obligations.InvariantHoldsAfterReset :=
  ⟨fun _ => State.inv_resetWith, State.inv_resetWith Config.wf_suggested⟩

section
variable {s : State} (h : s.Inv)
include h

/-- The invariant does not look at the model's own fields. -/
theorem State.Inv.withModelFields (ev : List Event) (rs : List Reply) (d : Nat) :
    State.Inv { s with inputs := ev, replies := rs, draws := d } :=
  ⟨h.cfg, h.bufWf, h.bufBelow, h.outRising, h.outBelow, h.status, h.scalar, h.sequence, h.outLen, h.outListed⟩

/-- The invariant does not look at LEN: any value is stored (R28). -/
theorem State.Inv.withLen (v : Word) : State.Inv { s with len := v } :=
  ⟨h.cfg, h.bufWf, h.bufBelow, h.outRising, h.outBelow, h.status, h.scalar, h.sequence, h.outLen, h.outListed⟩

theorem State.Inv.writeBuf {a : Nat} (ha : a < s.cfg.nbytesMax) (v : Byte) :
    State.Inv { s with buf := Memory.write s.buf a v } :=
  ⟨h.cfg, Memory.wf_write h.bufWf a v, Memory.below_write h.bufBelow ha v, h.outRising, h.outBelow, h.status,
    h.scalar, h.sequence, h.outLen, h.outListed⟩

theorem State.Inv.issue (w : Word) : (s.issue w).Inv :=
  State.inv_of_rk_zero h.cfg h.bufWf h.bufBelow h.outRising h.outBelow Status.reachable_issued Status.rk_issued

theorem State.Inv.raise (c : Cause) : (s.raise c).Inv :=
  State.inv_of_rk_zero h.cfg h.bufWf h.bufBelow h.outRising h.outBelow (Status.reachable_violation c)
    (Status.rk_violation c)

theorem State.Inv.hostReset : s.hostReset.Inv := (State.inv_resetWith h.cfg).withModelFields _ _ _

/-- A scalar completion leaves RK = 1, which a scalar command in CMD agrees with. -/
theorem State.Inv.returnScalar (hk : s.cmdIs true = true) (v : Nat) : (s.returnScalar v).Inv where
  cfg := h.cfg
  bufWf := h.bufWf
  bufBelow := h.bufBelow
  outRising := h.outRising
  outBelow := h.outBelow
  status := Status.reachable_doneScalar
  scalar _ := hk
  sequence hrk := by simp at hrk
  outLen hrk := by simp at hrk
  outListed hrk := by simp at hrk

/-- A sequence completion leaves RK = 2, which a sequence command in CMD agrees with, and lists each byte of the
sequence. -/
theorem State.Inv.returnSequence (hk : s.cmdIs false = true) {bytes : List Byte}
    (hlen : bytes.length ≤ s.cfg.noutMax) : (s.returnSequence bytes).Inv := by
  have hwidth : bytes.length < 2 ^ 32 := hlen.trans_lt h.cfg.2.2
  have houtLen := s.outLen_toNat_returnSequence hwidth
  exact {
    cfg := h.cfg
    bufWf := h.bufWf
    bufBelow := h.bufBelow
    outRising := Memory.rising_ofBytes bytes
    outBelow := Memory.below_ofBytes 0 bytes (by simpa using hlen)
    status := Status.reachable_doneSequence
    scalar hrk := by simp at hrk
    sequence _ := hk
    outLen _ := houtLen.trans_le hlen
    outListed _ j hj := by
      rw [s.outValue?_returnSequence hwidth, Option.isSome_iff_exists]
      exact ⟨_, List.getElem?_eq_getElem (houtLen ▸ hj)⟩ }

/-- A host write to a register is an issue, a write to LEN, or ignored (R68). -/
theorem State.Inv.writeRegister (k : Nat) (v : Word) : (s.writeRegister k v).Inv := by
  match k with
  | 0 => exact h.issue v
  | 2 => exact h.withLen v
  | 1 | _ + 3 => exact h

/-- An access in range keeps the invariant; the range matters for a write to BUF alone. -/
theorem State.Inv.perform {a : HostAction} (hr : a.outOfRange? s.cfg = none) : (s.perform a).Inv := by
  cases a with
  | writeReg k v => exact h.writeRegister k v
  | readReg k =>
    obtain ⟨v, d, hread⟩ := s.answerRegister_eq k
    rw [State.perform_readReg, hread]
    exact h.withModelFields _ _ _
  | writeBuf i v =>
    refine h.writeBuf (not_le.mp fun hi => ?_) v
    simp [HostAction.outOfRange?, hi] at hr
  | readBuf i => exact h.withModelFields _ _ _
  | writeOut j v => exact h
  | readOut j =>
    obtain ⟨v, d, hread⟩ := s.answerOut_eq j
    rw [State.perform_readOut, hread]
    exact h.withModelFields _ _ _
  | reset => exact h.hostReset

theorem State.Inv.complete {t : State} (ht : complete s = .next t) : t.Inv := by
  obtain ⟨c, hc⟩ | ⟨hk, v, hc⟩ | ⟨hk, bytes, hc, hlen⟩ := complete_cases s <;>
    obtain rfl := Host.Outcome.next.inj (hc.symm.trans ht)
  · exact h.raise c
  · exact h.returnScalar hk v
  · exact h.returnSequence hk (hlen h.cfg.2.1)

/-- Taking the block's turn off the events to come keeps the invariant. -/
theorem State.Inv.blockMoves {s0 : State} (hm : BlockMoves s s0) : s0.Inv := by
  rw [hm.eq]
  exact h.withModelFields _ _ _

/-- Taking a host action off the events to come keeps the invariant. -/
theorem State.Inv.hostMoves {a : HostAction} {s0 : State} (hm : HostMoves a s s0) : s0.Inv := by
  rw [hm.eq]
  exact h.withModelFields _ _ _

end

theorem HostMoves.cfg_eq {a : HostAction} {s s0 : State} (h : HostMoves a s s0) : s0.cfg = s.cfg := by rw [h.eq]

theorem BlockMoves.cfg_eq {s s0 : State} (h : BlockMoves s s0) : s0.cfg = s.cfg := by rw [h.eq]

/-- Settles O14, by the four kinds of step: an idle turn, a completion, an access of the host, a poll. -/
theorem everyStepKeepsTheInvariant : Obligations.EveryStepKeepsTheInvariant := by
  intro s t h hstep
  obtain ⟨s0, hm, -, rfl⟩ | ⟨s0, hm, -, hc⟩ | ⟨a, s0, hm, hr, -, rfl⟩ | ⟨ev, rfl⟩ := step_next hstep
  · exact h.blockMoves hm
  · exact (h.blockMoves hm).complete hc
  · exact (h.hostMoves hm).perform (hm.cfg_eq ▸ hr)
  · exact h.withModelFields _ _ _

/-! ## The capacities -/

theorem complete_cfg {s t : State} (h : complete s = .next t) : t.cfg = s.cfg := by
  obtain ⟨c, hc⟩ | ⟨-, v, hc⟩ | ⟨-, bytes, hc, -⟩ := complete_cases s <;>
    obtain rfl := Host.Outcome.next.inj (hc.symm.trans h) <;> rfl

theorem State.writeRegister_cfg (s : State) (k : Nat) (v : Word) : (s.writeRegister k v).cfg = s.cfg := by
  match k with
  | 0 | 1 | 2 | _ + 3 => rfl

theorem State.perform_cfg (s : State) (a : HostAction) : (s.perform a).cfg = s.cfg := by
  cases a with
  | writeReg k v => exact s.writeRegister_cfg k v
  | readReg k =>
    obtain ⟨v, d, hread⟩ := s.answerRegister_eq k
    rw [State.perform_readReg, hread]
  | readOut j =>
    obtain ⟨v, d, hread⟩ := s.answerOut_eq j
    rw [State.perform_readOut, hread]
  | writeBuf i v => rfl
  | readBuf i => rfl
  | writeOut j v => rfl
  | reset => rfl

/-- Settles O15, by the four kinds of step. -/
theorem capacitiesNeverChange : Obligations.CapacitiesNeverChange := by
  intro s t h
  obtain ⟨s0, hm, -, rfl⟩ | ⟨s0, hm, -, hc⟩ | ⟨a, s0, hm, -, -, rfl⟩ | ⟨ev, rfl⟩ := step_next h
  · exact hm.cfg_eq
  · exact (complete_cfg hc).trans hm.cfg_eq
  · exact (s0.perform_cfg a).trans hm.cfg_eq
  · rfl

/-! ## The rules of STATUS (R24) -/

theorem Status.rules_zero : Status.Rules 0#32 where
  busy h := by simp at h
  err h := by simp at h
  noErr _ := Status.cause_zero
  success h := by simp at h
  kind h := by simp at h

theorem Status.rules_issued : Status.Rules Status.issued where
  busy _ := ⟨Status.done_issued, Status.err_issued, Status.rk_issued, Status.cause_issued⟩
  err h := by simp at h
  noErr _ := Status.cause_issued
  success h := by simp at h
  kind h := by simp at h

theorem Status.rules_doneScalar : Status.Rules Status.doneScalar where
  busy h := by simp at h
  err h := by simp at h
  noErr _ := Status.cause_doneScalar
  success _ _ := .inl Status.rk_doneScalar
  kind _ := ⟨Status.done_doneScalar, Status.err_doneScalar⟩

theorem Status.rules_doneSequence : Status.Rules Status.doneSequence where
  busy h := by simp at h
  err h := by simp at h
  noErr _ := Status.cause_doneSequence
  success _ _ := .inr Status.rk_doneSequence
  kind _ := ⟨Status.done_doneSequence, Status.err_doneSequence⟩

theorem Status.rules_violation (c : Cause) : Status.Rules (Status.violation c) where
  busy h := by simp at h
  err _ := ⟨Status.done_violation c, Status.rk_violation c, by simpa using c.code_ne_zero⟩
  noErr h := by simp at h
  success _ h := by simp at h
  kind h := by simp at h

/-- Settles O16: a step that changes STATUS gives it one of the values of R23, each of which obeys the rules. -/
theorem statusFieldsObeyTheirRules : Obligations.StatusFieldsObeyTheirRules := by
  refine ⟨fun cfg => Status.rules_zero, fun s t hs h => ?_⟩
  obtain hst | ⟨w, s0, -, -, rfl⟩ | ⟨s0, -, -, hc⟩ | ⟨s0, -, rfl⟩ := step_status_cases h
  · exact hst ▸ hs
  · exact Status.rules_issued
  · obtain ⟨hst, -⟩ | ⟨hst, -⟩ | ⟨c, hst⟩ := complete_status hc <;> rw [hst]
    · exact Status.rules_doneScalar
    · exact Status.rules_doneSequence
    · exact Status.rules_violation c
  · exact Status.rules_zero

/-! ## The control states (R42) -/

/-- A completion clears BUSY (R23). -/
theorem complete_busy {s t : State} (h : complete s = .next t) : t.busy = false := by
  rw [State.busy]
  obtain ⟨hst, -⟩ | ⟨hst, -⟩ | ⟨c, hst⟩ := complete_status h <;> rw [hst]
  · exact Status.busy_doneScalar
  · exact Status.busy_doneSequence
  · exact Status.busy_violation c

/-- Settles O18: BUSY and DONE change with STATUS alone, so an issue, a completion and Reset are the only
transitions. -/
theorem controlStateTransitions : Obligations.ControlStateTransitions := by
  intro s t _ h
  obtain hst | ⟨w, s0, hm, hidle, rfl⟩ | ⟨s0, hm, hb, hc⟩ | ⟨s0, hm, rfl⟩ := step_status_cases h
  case inl =>
    have hbusy : t.busy = s.busy := by rw [State.busy, State.busy, hst]
    rw [hbusy, hst]
    exact ⟨fun h0 h1 => by simp [h0] at h1, fun h1 h0 => by simp [h1] at h0, fun h1 h0 => by simp [h1] at h0,
      fun h0 h1 => by simp [h0] at h1⟩
  case inr.inl =>
    have hissue : ∃ w s0, HostMoves (.writeReg 0 w) s s0 := ⟨w, s0, hm⟩
    refine ⟨fun _ _ => hissue, fun hbusy => ?_, fun _ _ => .inl ⟨Status.busy_issued, hissue⟩, fun _ hdone => ?_⟩
    · simp [hidle] at hbusy
    · simp at hdone
  case inr.inr.inl =>
    have hdone := complete_done hc
    have hbusy := complete_busy hc
    exact ⟨fun _ ht => by simp [hbusy] at ht, fun _ _ => .inl ⟨⟨s0, hm⟩, hdone⟩, fun _ ht => by simp [hdone] at ht,
      fun _ _ => ⟨hb, s0, hm⟩⟩
  case inr.inr.inr =>
    exact ⟨fun _ ht => by simp [State.busy] at ht, fun _ _ => .inr ⟨⟨s0, hm⟩, Status.done_zero⟩,
      fun _ _ => .inr ⟨s0, hm⟩, fun _ ht => by simp at ht⟩

end Sys2Proof.Machine
end

section
/-! PROOFS. The statements about the block's turn (spec/10_state.md R23, spec/20_memory.md R62,
spec/70_reset_and_hazards.md R255), the host's WAIT (spec/30_encoding.md R94) and the recovery from an error
(spec/60_exceptions.md R212). -/

namespace Sys2Proof.Machine

/-! ## The block's turn -/

/-- Settles O5: a busy block's turn is the completion of the word in CMD, which the turn leaves alone. -/
theorem stepRunsDecodedCommand : Obligations.StepRunsDecodedCommand := fun s s0 i hm hb hd => by
  rw [step_block_busy hm hb, complete_of_decode (hm.cmd_eq ▸ hd)]

theorem tableWord_32 {w : Nat} (h : w < 2 ^ 32) : tableWord 32 w = BitVec.ofNat 32 w := by
  rw [tableWord, Nat.mod_eq_of_lt h]

theorem decode_of_decodeTableWord {nbits w : Nat} {i : Instr} (h : decodeTableWord nbits w = some i) :
    decode (tableWord nbits w) = .ok i := by
  unfold decodeTableWord at h
  split at h
  · next j hj => rw [hj, Option.some.inj h]
  · cases h

/-- After `issuedNext` the block moves next, in the state just after the issue. -/
theorem blockMoves_issuedNext (s : State) (w : Word) : BlockMoves (s.issuedNext w) (s.issue w) :=
  .inr ⟨s.inputs, rfl, rfl⟩

/-- Settles O6: the placed word is in CMD, BUSY is set and the block moves next. -/
theorem fetchedWordRuns : Obligations.FetchedWordRuns := by
  intro s w i hw hd
  have hdecode : decode (s.withFetchWord 32 w).cmd = .ok i := decode_of_decodeTableWord hd
  rw [State.withFetchWord, stepRunsDecodedCommand _ _ i (blockMoves_issuedNext s _) Status.busy_issued hdecode,
    State.issue_eq, tableWord_32 hw]

/-- Settles O7: the idle turn of the block. -/
theorem idleBlockDoesNothing : Obligations.IdleBlockDoesNothing := fun _ _ => step_block_idle

/-- A completion answers a next state and keeps CMD, LEN, BUF, the capacities and the model's own fields (R37, R38). -/
theorem complete_next (s : State) : ∃ t, complete s = .next t ∧ SameInput s t := by
  obtain ⟨c, hc⟩ | ⟨-, v, hc⟩ | ⟨-, bytes, hc, -⟩ := complete_cases s
  · exact ⟨_, hc, (s.errorFrame_raise c).input⟩
  · exact ⟨_, hc, (s.scalarFrame_returnScalar v).input⟩
  · exact ⟨_, hc, (s.sequenceFrame_returnSequence bytes).input⟩

/-- Settles O9: the turn is the completion, whatever the word. -/
theorem busyBlockCompletesAtItsTurn : Obligations.BusyBlockCompletesAtItsTurn := by
  intro s s0 hm hb
  obtain ⟨t, ht, hsame⟩ := complete_next s0
  exact ⟨t, (step_block_busy hm hb).trans ht, complete_done ht, complete_busy ht, hsame⟩

/-! ## WAIT (R94) -/

/-- One step of a run of several. -/
theorem run_succ_of_step {s t : State} (h : step s = .next t) (k : Nat) :
    Host.Core.run Sys2Proof.core (k + 1) s = Host.Core.run Sys2Proof.core k t := by
  have hcore : Sys2Proof.core.step s = .next t := h
  simp only [Host.Core.run, hcore]

/-- A poll that returns DONE = 0 leaves the block its turn and the host its WAIT. -/
theorem step_wait_of_not_done {s : State} {rest : List Event} (hin : s.inputs = .wait :: rest)
    (hd : Status.done s.status = false) :
    step s = .next { s with inputs := .block :: .wait :: rest, replies := .word s.status :: s.replies } := by
  simp [step, nextEvent, hin, pollStatus, hd, State.answer]

/-- A poll that returns DONE = 1 ends the WAIT. -/
theorem step_wait_of_done {s : State} {rest : List Event} (hin : s.inputs = .wait :: rest)
    (hd : Status.done s.status = true) :
    step s = .next { s with inputs := rest, replies := .word s.status :: s.replies } := by
  simp [step, nextEvent, hin, pollStatus, hd, State.answer]

/-- Settles O10: a poll, the completion, which sets DONE and leaves the events and the replies alone, and the poll that
ends the WAIT. -/
theorem waitEndsWithDone : Obligations.WaitEndsWithDone := by
  intro s rest hin hb hd
  have hpoll := step_wait_of_not_done hin hd
  obtain ⟨t, hturn, hdone, -, hsame⟩ := busyBlockCompletesAtItsTurn
    { s with inputs := .block :: .wait :: rest, replies := .word s.status :: s.replies } _ (.inr ⟨_, rfl, rfl⟩) hb
  refine ⟨{ t with inputs := rest, replies := .word t.status :: t.replies }, ?_, rfl, hdone, ?_⟩
  · rw [run_succ_of_step hpoll, run_succ_of_step hturn, run_succ_of_step (step_wait_of_done hsame.inputs hdone)]
    rfl
  · rw [hsame.replies]

/-! ## Recovery (R212) -/

/-- Settles O58: the error entry leaves BUSY 0, so a write to CMD is an issue, which clears ERR, CAUSE and RK. -/
theorem nextIssueClearsTheError : Obligations.NextIssueClearsTheError := by
  intro i s t w rest h herr
  obtain ⟨hb, -⟩ := errorEntryChangesOnlyStatus i s t h herr
  exact ⟨_, step_host_idle (a := .writeReg 0 w) ⟨rest, rfl, rfl⟩ rfl hb, rfl, Status.busy_issued, Status.err_issued,
    Status.cause_issued, Status.rk_issued⟩

end Sys2Proof.Machine
end

section
/-! PROOFS. The statements about all commands (spec/00_scope.md R12, spec/10_state.md R37, spec/20_memory.md R57,
spec/60_exceptions.md R202, R205). -/

namespace Sys2Proof.Machine

theorem Cause.code_bounds (c : Cause) : 1 ≤ c.code.toNat ∧ c.code.toNat ≤ 10 := by cases c <;> decide

/-- Settles O8: a command completes with the success value of its kind or with an error value. -/
theorem everyCommandEndsInOneOutcome : Obligations.EveryCommandEndsInOneOutcome := by
  intro i s
  obtain ⟨t, ht, hst | ⟨c, hst⟩⟩ := exec_status i s <;> refine ⟨t, ht, ?_⟩ <;> rw [hst]
  · cases scalarCommand i <;> simp
  · obtain ⟨hlo, hhi⟩ := c.code_bounds
    simp [hlo, hhi]

/-- Settles O19: the error entry writes STATUS alone, a scalar completion RESULT too, a sequence completion OUT and
OUT_LEN too. -/
theorem effectsOfEveryCommand : Obligations.EffectsOfEveryCommand := by
  intro i s t h
  obtain ⟨c, -, hc⟩ | ⟨hk, v, hc⟩ | ⟨hk, bytes, hc, -⟩ := exec_cases i s <;>
    obtain rfl := Host.Outcome.next.inj (hc.symm.trans h)
  · have hframe := s.errorFrame_raise c
    exact ⟨hframe.input, fun _ => hframe, fun _ => hframe.out, fun _ => hframe.result⟩
  · have hframe := s.scalarFrame_returnScalar v
    exact ⟨hframe.input, fun herr => by simp at herr, fun _ => hframe.out, fun hk' => by simp [hk] at hk'⟩
  · have hframe := s.sequenceFrame_returnSequence bytes
    exact ⟨hframe.input, fun herr => by simp at herr, fun hk' => by simp [hk] at hk', fun _ => hframe.result⟩

/-- Settles O21: the input sequence ends at LEN, and a command completes in the same way on equal ones. -/
theorem bytesFromLenOnAreNeverRead : Obligations.BytesFromLenOnAreNeverRead := by
  intro i s u t v hcfg hlen hbytes hs hu
  have hend := SameSequence.exec_sameCompletion ⟨hcfg, hlen, hbytes⟩ i
  rw [hs, hu] at hend
  exact hend.result_eq

/-! ## The causes (R202) -/

/-- The idle block after reset with a value in LEN. -/
def resetWithLen (n : Word) : State := { State.reset with len := n }

theorem inv_resetWithLen (n : Word) : (resetWithLen n).Inv := (State.inv_resetWith Config.wf_suggested).withLen n

/-- A command that makes the error entry from a state of the invariant raises its cause there. -/
theorem exec_raises {i : Instr} {s : State} {c : Cause} (hinv : s.Inv) (h : exec i s = .next (s.raise c)) :
    ∃ t, s.Inv ∧ exec i s = .next t ∧ Status.err t.status = true ∧ Status.cause t.status = c.code :=
  ⟨_, hinv, h, Status.err_violation c, Status.cause_violation c⟩

/-- Settles O23: an error is the error entry with a cause of the table, and each cause of the table is raised on the
block after reset with LEN = 0, or with LEN = 33 for BUF_CAP. -/
theorem causesOfEachCommand : Obligations.CausesOfEachCommand := by
  have hcap : (resetWithLen 33#32).cfg.nbytesMax < (resetWithLen 33#32).len.toNat := by decide
  have hlen : (resetWithLen 0#32).len.toNat ≤ (resetWithLen 0#32).cfg.nbytesMax := by decide
  have hinv := inv_resetWithLen
  simp only [Obligations.CausesOfEachCommand, List.mem_cons, List.not_mem_nil, or_false, forall_eq_or_imp,
    forall_eq]
  refine ⟨fun i s t h herr => ?table, ⟨?xLen, ?xOff, ?xOverflow⟩, ?dOff, ⟨?rLen, ?rEnd, ?rNeg, ?rCap⟩, ⟨?lLen, ?lCap⟩,
    ⟨?uBits, ?uRange, ?uCap⟩, ⟨?cLen, ?cCap⟩, fun s s0 t hd hb hm h => ?illegal⟩
  case table =>
    obtain ⟨c, hmem, rfl⟩ := exec_error_eq_raise h herr
    exact ⟨c, hmem, Status.cause_violation c⟩
  case xLen =>
    exact ⟨0#8, 0, -1, _, exec_raises (hinv 0#32) (exec_xbyte_of_lenDomain (by decide) (by decide) (by decide))⟩
  case xOff => exact ⟨0#8, 8, 0, _, exec_raises (hinv 0#32) (exec_xbyte_of_offDomain (by decide))⟩
  case xOverflow =>
    exact ⟨0#8, 0, 9, _, exec_raises (hinv 0#32)
      (exec_xbyte_of_byteOverflow (by decide) (by decide) (by decide) (by decide))⟩
  case dOff =>
    exact ⟨0#8, 8, _, exec_raises (hinv 0#32) ((exec_xbyteD_eq _ _ _).trans (exec_xbyte_of_offDomain (by decide)))⟩
  case rLen => exact ⟨0, 54, _, exec_raises (hinv 0#32) (exec_rdbits_of_lenDomain hlen (by decide))⟩
  case rEnd =>
    exact ⟨0, 1, _, exec_raises (hinv 0#32)
      (exec_rdbits_of_pastEnd hlen (by decide) (by decide) (by decide) (by decide))⟩
  case rNeg =>
    exact ⟨-1, 0, _, exec_raises (hinv 0#32) (exec_rdbits_of_offNeg hlen (by decide) (by decide) (by decide))⟩
  case rCap => exact ⟨0, 0, _, exec_raises (hinv 33#32) (exec_rdbits_of_bufCap hcap)⟩
  case lLen => exact ⟨0, 54, _, exec_raises (hinv 0#32) (exec_rdbitsL_of_lenDomain hlen (by decide))⟩
  case lCap => exact ⟨0, 0, _, exec_raises (hinv 33#32) (exec_rdbitsL_of_bufCap hcap)⟩
  case uBits => exact ⟨0, 0, _, exec_raises (hinv 0#32) (exec_unpack_of_bitsDomain hlen (by decide))⟩
  case uRange =>
    exact ⟨1, 1, _, exec_raises (hinv 0#32)
      (exec_unpack_of_outRange hlen (by decide) (by decide) (.inl ((groupCount_neg_iff (by decide)).mpr (by decide))))⟩
  case uCap => exact ⟨1, 0, _, exec_raises (hinv 33#32) (exec_unpack_of_bufCap hcap)⟩
  case cLen => exact ⟨_, exec_raises (hinv 0#32) (exec_crock_of_badIdLen hlen (by decide))⟩
  case cCap => exact ⟨_, exec_raises (hinv 33#32) (exec_crock_of_bufCap hcap)⟩
  case illegal =>
    rw [step_block_busy hm hb, complete_of_illegal (hm.cmd_eq ▸ hd)] at h
    obtain rfl := Host.Outcome.next.inj h
    exact ⟨Status.err_violation .illegalCmd, Status.cause_violation .illegalCmd⟩

/-! ## BUF_CAP (R205) -/

theorem Status.eq_bufCap_of_violation {c : Cause} (h : Status.violation c = 0xA06#32) : c = .bufCap := by
  revert h
  cases c <;> decide

/-- Only a command that can raise BUF_CAP ends with that STATUS. -/
theorem bufCap_mem_of_exec {i : Instr} {s t : State} (h : exec i s = .next t) (hst : t.status = 0xA06#32) :
    Cause.bufCap ∈ possibleCauses i := by
  have herr : Status.err t.status = true := by rw [hst]; decide
  obtain ⟨c, hmem, rfl⟩ := exec_error_eq_raise h herr
  exact Status.eq_bufCap_of_violation hst ▸ hmem

/-- Settles O24: the check of LEN comes first in four commands; the extractor's commands do not have the cause. -/
theorem lenAboveCapacity : Obligations.LenAboveCapacity := by
  intro s hcap
  have hraise : s.raise .bufCap = { s with status := 0xA06#32 } := s.raise_eq .bufCap
  rw [← hraise]
  exact ⟨fun _ _ => exec_rdbits_of_bufCap hcap, fun _ _ => exec_rdbitsL_of_bufCap hcap,
    fun _ _ => exec_unpack_of_bufCap hcap, exec_crock_of_bufCap hcap,
    fun b o n t h hst => by simpa [possibleCauses] using bufCap_mem_of_exec h hst,
    fun b o t h hst => by simpa [possibleCauses] using bufCap_mem_of_exec h hst⟩

end Sys2Proof.Machine
end

section
/-! PROOFS. Laws of the bit stream (spec/20_memory.md R52, R53, R70; spec/41_bit_reader.md R133): reads of adjacent and
of enclosed spans, of all zeros and all ones, of bytes, and loose reads beyond the ends of the input. -/

namespace Sys2Proof.Machine

/-! ## Adjacent and enclosed spans -/

theorem readBits_one (rd : Int → Byte) (off : Int) : readBits rd off 1 = bitAt rd off := by
  simpa using readBits_succ rd off 0

/-- A read is the read of its first bits, shifted, plus the read of the others. -/
theorem readBits_add (rd : Int → Byte) (off : Int) (n1 n2 : Nat) :
    readBits rd off (n1 + n2) = readBits rd off n1 * 2 ^ n2 + readBits rd (off + n1) n2 := by
  induction n2 with
  | zero => simp
  | succ n2 ih =>
    rw [← Nat.add_assoc, readBits_succ, readBits_succ, ih, pow_succ, Nat.cast_add, Int.add_assoc]
    ring

/-- The `m` bits from bit `a` on of a read of `a + m + r` bits are the read of that span. -/
theorem readBits_shiftRight_and (rd : Int → Byte) (off : Int) (a m r : Nat) :
    (readBits rd off (a + m + r) >>> r) &&& (2 ^ m - 1) = readBits rd (off + a) m := by
  have hlow := readBits_lt rd (off + (a + m : Nat)) r
  have hspan := readBits_lt rd (off + a) m
  rw [Nat.shiftRight_eq_div_pow, Nat.and_two_pow_sub_one_eq_mod, readBits_add rd off (a + m) r, Nat.mul_comm,
    Nat.mul_add_div (Nat.two_pow_pos r), Nat.div_eq_of_lt hlow, Nat.add_zero, readBits_add rd off a m,
    Nat.mul_add_mod_self_right, Nat.mod_eq_of_lt hspan]

/-- Bit `k` of a read, the first one most significant. -/
theorem readBits_bit (rd : Int → Byte) (off : Int) {k n : Nat} (hk : k < n) :
    (readBits rd off n >>> (n - 1 - k)) &&& 1 = bitAt rd (off + k) := by
  have h := readBits_shiftRight_and rd off k 1 (n - 1 - k)
  rwa [show k + 1 + (n - 1 - k) = n by omega, readBits_one] at h

/-! ## All zeros, all ones -/

theorem readBits_of_zeros {rd : Int → Byte} {off : Int} {n : Nat} (h : ∀ k : Nat, k < n → bitAt rd (off + k) = 0) :
    readBits rd off n = 0 := by
  induction n with
  | zero => rfl
  | succ n ih => rw [readBits_succ, ih fun k hk => h k (by omega), h n (by omega)]

theorem readBits_of_ones {rd : Int → Byte} {off : Int} {n : Nat} (h : ∀ k : Nat, k < n → bitAt rd (off + k) = 1) :
    readBits rd off n = 2 ^ n - 1 := by
  induction n with
  | zero => rfl
  | succ n ih =>
    have hpos := Nat.two_pow_pos n
    rw [readBits_succ, ih fun k hk => h k (by omega), h n (by omega), pow_succ]
    omega

/-- Every bit of a byte of zeros is 0. -/
theorem bitAt_of_zero {rd : Int → Byte} {p : Int} (h : rd (p / 8) = 0#8) : bitAt rd p = 0 := by
  rw [bitAt_eq, h]
  simp

/-- Every bit of a byte of ones is 1. -/
theorem bitAt_of_allOnes {rd : Int → Byte} {p : Int} (h : rd (p / 8) = 255#8) : bitAt rd p = 1 := by
  have hbits : ∀ j < 8, 255 / 2 ^ j % 2 = 1 := by decide
  rw [bitAt_eq, h]
  exact hbits _ (by omega)

/-! ## Spans of a byte -/

/-- A span one bit longer doubles the span and adds the bit. -/
theorem xbyte_succ (b : Byte) {o n : Nat} (h : o + n ≤ 7) :
    xbyte b o (n + 1 : Nat) = 2 * xbyte b o n + b.toNat / 2 ^ (7 - o - n) % 2 := by
  rw [xbyte_eq, xbyte_eq, show 8 - o - (n + 1) = 7 - o - n by omega, show 8 - o - n = 7 - o - n + 1 by omega,
    pow_succ', Nat.mod_mul, Nat.div_div_eq_div_mul, ← pow_succ]
  omega

/-- A span of a byte is a read inside it. -/
theorem xbyte_eq_readBits (rd : Int → Byte) (q : Int) {o n : Nat} (h : o + n ≤ 8) :
    xbyte (rd q) o n = readBits rd (8 * q + o) n := by
  induction n with
  | zero => simp [xbyte]
  | succ n ih =>
    have hbit : bitAt rd (8 * q + o + n) = (rd q).toNat / 2 ^ (7 - o - n) % 2 := by
      rw [bitAt_eq, show (8 * q + o + n) / 8 = q by omega, show (7 - (8 * q + o + n) % 8).toNat = 7 - o - n by omega]
    rw [xbyte_succ _ (by omega), readBits_succ, ih (by omega), hbit]

/-- A read of an aligned byte is the byte. -/
theorem readBits_byte (rd : Int → Byte) (q : Int) : readBits rd (8 * q) 8 = (rd q).toNat := by
  have h := xbyte_eq_readBits rd q (o := 0) (n := 8) (by decide)
  rw [Nat.cast_zero, Int.add_zero] at h
  rw [← h]
  exact (xbyte_eq (rd q) 0 8).trans (by simpa using (rd q).isLt)

/-! ## Big-endian integers (R52) -/

/-- A numeral of digits from the most significant on, one digit longer. -/
theorem sum_digits_succ (f : Nat → Nat) (B m : Nat) :
    ((List.range (m + 1)).map fun i => f i * B ^ (m + 1 - 1 - i)).sum =
      B * ((List.range m).map fun i => f i * B ^ (m - 1 - i)).sum + f m := by
  have hshift : ∀ i ∈ List.range m, f i * B ^ (m + 1 - 1 - i) = B * (f i * B ^ (m - 1 - i)) := by
    intro i hi
    have hi := List.mem_range.mp hi
    rw [show m + 1 - 1 - i = m - 1 - i + 1 by omega, pow_succ]
    ring
  rw [List.range_succ, List.map_append, List.sum_append, List.map_congr_left hshift, List.sum_map_mul_left]
  simp

theorem bigEndian_succ (rd : Int → Byte) (a : Int) (m : Nat) :
    bigEndian rd a (m + 1) = 256 * bigEndian rd a m + (rd (a + m)).toNat :=
  sum_digits_succ (fun j => (rd (a + j)).toNat) 256 m

/-- A read of whole aligned bytes is their big-endian integer. -/
theorem readBits_bytes (rd : Int → Byte) (a : Int) (m : Nat) : readBits rd (8 * a) (8 * m) = bigEndian rd a m := by
  induction m with
  | zero => rfl
  | succ m ih =>
    have hlast : readBits rd (8 * a + (8 * m : Nat)) 8 = (rd (a + m)).toNat := by
      rw [show 8 * a + (8 * m : Nat) = 8 * (a + m) by push_cast; ring, readBits_byte]
    rw [bigEndian_succ, Nat.mul_succ, readBits_add, ih, hlast, Nat.mul_comm (bigEndian rd a m)]
    norm_num

/-! ## Loose reads beyond the ends of the input (R70) -/

section
variable {s : State} {off : Int}

/-- A read entirely before the start or past the end. -/
theorem readBits_outside {n : Nat} (h : off + n ≤ 0 ∨ 8 * (s.len.toNat : Int) ≤ off) :
    readBits (memReadLoose s) off n = 0 :=
  readBits_of_zeros fun k hk => bitAt_outside (by omega)

/-- Bits before the start add nothing. -/
theorem readBits_leadingZeros {a n : Nat} (h : off + a = 0) :
    readBits (memReadLoose s) off (a + n) = readBits (memReadLoose s) 0 n := by
  rw [readBits_add, readBits_outside (.inl h.le), Nat.zero_mul, Nat.zero_add, h]

/-- Bits past the end shift what is read before it. -/
theorem readBits_trailingZeros {m r : Nat} (h : off + m = 8 * (s.len.toNat : Int)) :
    readBits (memReadLoose s) off (m + r) = readBits (memReadLoose s) off m * 2 ^ r := by
  rw [readBits_add, readBits_outside (.inr h.ge), Nat.add_zero]

/-- A loose read inside the input is the strict one. -/
theorem readBits_inside {n : Nat} (h0 : 0 ≤ off) (hend : off + n ≤ 8 * (s.len.toNat : Int)) :
    readBits (memReadLoose s) off n = readBits (memRead s) off n :=
  readBits_congr fun k hk => bitAt_inside (by omega) (by omega)

end

/-- A read depends on the bytes it covers alone. -/
theorem readBits_congr_bytes {rd rd' : Int → Byte} {off : Int} {n : Nat}
    (h : ∀ i, off / 8 ≤ i → i ≤ (off + n - 1) / 8 → rd i = rd' i) : readBits rd off n = readBits rd' off n := by
  refine readBits_congr fun k hk => ?_
  rw [bitAt_eq, bitAt_eq, h _ (by omega) (by omega)]

/-- Loose reads of states of the same length agree on a byte where the buffers agree, if it is inside them. -/
theorem memReadLoose_congr {s u : State} (hlen : u.len = s.len) {i : Int}
    (h : ∀ a : Nat, (a : Int) = i → a < s.len.toNat → Memory.read u.buf a = Memory.read s.buf a) :
    memReadLoose u i = memReadLoose s i := by
  by_cases hi : 0 ≤ i ∧ i < (s.len.toNat : Int)
  · obtain ⟨h0, h1⟩ := hi
    rw [memReadLoose_inside h0 (hlen ▸ h1), memReadLoose_inside h0 h1]
    exact h i.toNat (by omega) (by omega)
  · have hout : i < 0 ∨ (s.len.toNat : Int) ≤ i := by omega
    rw [memReadLoose_outside (hlen ▸ hout), memReadLoose_outside hout]

/-- Settles O36, from the laws of the stream. -/
theorem readerLaws : Obligations.ReaderLaws := by
  refine ⟨readBits_add, readBits_one, readBits_bytes, fun s off n hneg hn => ?leading,
    fun s off n h0 hlo hhi => ?trailing, fun s off n => readBits_outside, fun s u off n hlen hbytes => ?dependence⟩
  case leading =>
    have hsplit : n = (-off).toNat + (n + off).toNat := by omega
    conv_lhs => rw [hsplit]
    exact readBits_leadingZeros (by omega)
  case trailing =>
    have hsplit : n = (8 * (s.len.toNat : Int) - off).toNat + (off + n - 8 * (s.len.toNat : Int)).toNat := by omega
    conv_lhs => rw [hsplit]
    exact readBits_trailingZeros (by omega)
  case dependence =>
    refine readBits_congr_bytes fun i hlo hhi => memReadLoose_congr hlen ?_
    rintro a rfl ha
    exact hbytes a hlo hhi ha

end Sys2Proof.Machine
end

section
/-! PROOFS. The statements about the byte-wise algorithm (spec/41_bit_reader.md R137, R138) and about what RDBITS and
RDBITS.L return (R54, R135, R136, R141). -/

namespace Sys2Proof.Machine

/-! ## The byte-wise algorithm -/

/-- The full-byte steps append the bits of their bytes. -/
theorem fullBytes_eq (rd : Int → Byte) (idx : Int) (result m : Nat) :
    fullBytes rd idx result m = result * 2 ^ (8 * m) + readBits rd (8 * idx) (8 * m) := by
  induction m generalizing idx result with
  | zero => simp [fullBytes]
  | succ m ih =>
    have hlen : 8 * (m + 1) = 8 + 8 * m := by omega
    have hfirst : readBits rd (8 * idx) (8 + 8 * m) =
        (rd idx).toNat * 2 ^ (8 * m) + readBits rd (8 * (idx + 1)) (8 * m) := by
      rw [readBits_add, readBits_byte, Int.mul_add]
      rfl
    rw [fullBytes, ih, hlen, hfirst, pow_add]
    ring

/-- Full bytes after a read that ends at their start continue the read. -/
theorem fullBytes_readBits {rd : Int → Byte} {off idx : Int} {k : Nat} (h : off + k = 8 * idx) (m : Nat) :
    fullBytes rd idx (readBits rd off k) m = readBits rd off (k + 8 * m) := by
  rw [fullBytes_eq, readBits_add, h]

/-- The last bits come from the start of the byte after the full ones. -/
theorem shiftRight_eq_readBits (rd : Int → Byte) (q : Int) {r : Nat} (hr : r ≤ 8) :
    (rd q).toNat >>> (8 - r) = readBits rd (8 * q) r := by
  have h := readBits_add rd (8 * q) r (8 - r)
  rw [show r + (8 - r) = 8 by omega, readBits_byte] at h
  rw [h, Nat.shiftRight_eq_div_pow, Nat.mul_comm, Nat.mul_add_div (Nat.two_pow_pos _),
    Nat.div_eq_of_lt (readBits_lt _ _ _), Nat.add_zero]

/-- The first byte's bits are the first bits of the read. -/
theorem xbyte_first_eq (rd : Int → Byte) (off : Int) {k : Nat} (h : k ≤ (8 - off % 8).toNat) :
    xbyte (rd (off / 8)) (off % 8) k = readBits rd off k := by
  obtain ⟨o, ho⟩ := Int.eq_ofNat_of_zero_le (a := off % 8) (by omega)
  have hspan := xbyte_eq_readBits rd (off / 8) (o := o) (n := k) (by omega)
  rwa [← ho, Int.mul_ediv_add_emod] at hspan

/-- A read that the first byte covers takes its bits alone. -/
theorem readBitsAlg_of_firstByte {rd : Int → Byte} {off : Int} {n : Nat} (h : n ≤ (8 - off % 8).toNat) :
    readBitsAlg rd off n = readBits rd off n := by
  simpa [readBitsAlg, min_eq_left h, fullBytes] using xbyte_first_eq rd off h

/-- A read of `rem` bits more than the first byte has: full bytes, then the last bits if any. -/
theorem readBitsAlg_of_moreBytes {rd : Int → Byte} {off : Int} {k : Nat} (hk : k = (8 - off % 8).toNat) (rem : Nat) :
    readBitsAlg rd off (k + rem) = readBits rd off (k + rem) := by
  have hend : off + k = 8 * (off / 8 + 1) := by omega
  have hsplit : k + rem = k + 8 * (rem / 8) + rem % 8 := by omega
  have hlast : off + (k + 8 * (rem / 8) : Nat) = 8 * (off / 8 + 1 + (rem / 8 : Nat)) := by omega
  simp only [readBitsAlg, ← hk, min_eq_right (Nat.le_add_right k rem), Nat.add_sub_cancel_left,
    xbyte_first_eq rd off hk.le, fullBytes_readBits hend]
  split
  · rw [shiftRight_eq_readBits rd _ (by omega), ← hlast, ← readBits_add, ← hsplit]
  · congr 1
    omega

/-- Settles O34: the bits of the first byte, of the full bytes and of the last byte are adjacent spans of the read. -/
theorem algorithmComputesTheDefinition : Obligations.AlgorithmComputesTheDefinition := by
  intro rd off n _
  by_cases h : n ≤ (8 - off % 8).toNat
  · exact readBitsAlg_of_firstByte h
  · obtain ⟨rem, rfl⟩ := Nat.exists_eq_add_of_le (not_le.mp h).le
    exact readBitsAlg_of_moreBytes rfl rem

/-! ## What the reads return -/

/-- The outcome of RDBITS by its checks: BUF_CAP, LEN_DOMAIN, an error of the offset, or the read (R131). -/
theorem exec_rdbits_cases (off n : Int) (s : State) :
    (s.cfg.nbytesMax < s.len.toNat ∧ exec (.rdbits off n) s = .next (s.raise .bufCap)) ∨
    (s.len.toNat ≤ s.cfg.nbytesMax ∧ (n < 0 ∨ n > 53) ∧ exec (.rdbits off n) s = .next (s.raise .lenDomain)) ∨
    (s.len.toNat ≤ s.cfg.nbytesMax ∧ 0 ≤ n ∧ n ≤ 53 ∧
      (exec (.rdbits off n) s = .next (s.raise .offNeg) ∨ exec (.rdbits off n) s = .next (s.raise .pastEnd))) ∨
    (s.len.toNat ≤ s.cfg.nbytesMax ∧ 0 ≤ n ∧ n ≤ 53 ∧ 0 ≤ off ∧ off + n ≤ 8 * (s.len.toNat : Int) ∧
      exec (.rdbits off n) s = .next (s.returnScalar (readBits (memRead s) off n.toNat))) := by
  by_cases hcap : s.cfg.nbytesMax < s.len.toNat
  · exact .inl ⟨hcap, exec_rdbits_of_bufCap hcap⟩
  have hlen := not_lt.mp hcap
  by_cases hn : n < 0 ∨ n > 53
  · exact .inr (.inl ⟨hlen, hn, exec_rdbits_of_lenDomain hlen hn⟩)
  have h0 : 0 ≤ n := by omega
  have h53 : n ≤ 53 := by omega
  refine .inr (.inr ?_)
  by_cases hoff : off < 0
  · exact .inl ⟨hlen, h0, h53, .inl (exec_rdbits_of_offNeg hlen h0 h53 hoff)⟩
  by_cases hend : off + n > 8 * (s.len.toNat : Int)
  · exact .inl ⟨hlen, h0, h53, .inr (exec_rdbits_of_pastEnd hlen h0 h53 (by omega) hend)⟩
  · exact .inr ⟨hlen, h0, h53, not_lt.mp hoff, not_lt.mp hend,
      exec_rdbits_of_inside hlen h0 h53 (not_lt.mp hoff) (not_lt.mp hend)⟩

/-- An RDBITS without an error passed its checks and returned the read. -/
theorem exec_rdbits_success {off n : Int} {s t : State} (ht : exec (.rdbits off n) s = .next t)
    (herr : Status.err t.status = false) :
    s.len.toNat ≤ s.cfg.nbytesMax ∧ 0 ≤ n ∧ n ≤ 53 ∧ 0 ≤ off ∧ off + n ≤ 8 * (s.len.toNat : Int) ∧
      t = s.returnScalar (readBits (memRead s) off n.toNat) := by
  obtain ⟨-, hc⟩ | ⟨-, -, hc⟩ | ⟨-, -, -, hc | hc⟩ | ⟨hlen, h0, h53, hoff, hend, hc⟩ := exec_rdbits_cases off n s
  · exact (exec_raise_not_success hc ht herr).elim
  · exact (exec_raise_not_success hc ht herr).elim
  · exact (exec_raise_not_success hc ht herr).elim
  · exact (exec_raise_not_success hc ht herr).elim
  · exact ⟨hlen, h0, h53, hoff, hend, Host.Outcome.next.inj (ht.symm.trans hc)⟩

/-- An RDBITS.L without an error passed its checks and returned the loose read. -/
theorem exec_rdbitsL_success {off n : Int} {s t : State} (ht : exec (.rdbitsL off n) s = .next t)
    (herr : Status.err t.status = false) :
    n ≤ 53 ∧ t = s.returnScalar (readBits (memReadLoose s) off n.toNat) := by
  by_cases hcap : s.cfg.nbytesMax < s.len.toNat
  · exact (exec_raise_not_success (exec_rdbitsL_of_bufCap hcap) ht herr).elim
  have hlen := not_lt.mp hcap
  by_cases hn : n < 0 ∨ n > 53
  · exact (exec_raise_not_success (exec_rdbitsL_of_lenDomain hlen hn) ht herr).elim
  have hc := exec_rdbitsL_of_inDomain (off := off) hlen (n := n) (by omega) (by omega)
  exact ⟨by omega, Host.Outcome.next.inj (ht.symm.trans hc)⟩

/-- Settles O32: a read that passed its checks lies between the start of the input and its end. -/
theorem strictReadStaysInside : Obligations.StrictReadStaysInside := by
  intro off n s t ht herr k hk
  obtain ⟨hlen, h0, -, hoff, hend, -⟩ := exec_rdbits_success ht herr
  omega

/-- The range of a read of at most 53 bits, as RESULT holds it (R141). -/
theorem returnScalar_readBits_bounds (s : State) (rd : Int → Byte) (off : Int) {n : Int} (h53 : n ≤ 53) :
    (s.returnScalar (readBits rd off n.toNat)).result.toNat ≤ 2 ^ n.toNat - 1 ∧
    (n = 53 → (∀ k : Nat, k < 53 → bitAt rd (off + k) = 1) →
      (s.returnScalar (readBits rd off n.toNat)).result.toNat = 9007199254740991) := by
  obtain ⟨hresult, -⟩ := s.returnScalar_spec (readBits_lt_result rd off h53)
  rw [hresult]
  refine ⟨Nat.le_sub_one_of_lt (readBits_lt rd off n.toNat), ?_⟩
  rintro rfl hones
  exact readBits_of_ones (n := 53) hones

/-- Settles O35: the bound of every read, which RESULT holds whole. -/
theorem resultFitsItsRegister : Obligations.ResultFitsItsRegister := by
  refine ⟨fun off n s t ht herr => ?strict, fun off n s t ht herr => ?loose, fun rd off n hn => ?bound⟩
  case strict =>
    obtain ⟨-, -, h53, -, -, rfl⟩ := exec_rdbits_success ht herr
    exact returnScalar_readBits_bounds s _ off h53
  case loose =>
    obtain ⟨h53, rfl⟩ := exec_rdbitsL_success ht herr
    exact returnScalar_readBits_bounds s _ off h53
  case bound =>
    have hlt : readBits rd off n < 2 ^ 53 := readBits_lt_result rd off (n := n) (by exact_mod_cast hn)
    omega

/-! ## Strict and loose (R136) -/

/-- A loose bit is the buffer's inside the input and 0 outside it (R70). -/
theorem bitAt_memReadLoose (s : State) (p : Int) :
    bitAt (memReadLoose s) p = if 0 ≤ p ∧ p < 8 * (s.len.toNat : Int) then bitAt (memRead s) p else 0 := by
  split
  · next h => exact bitAt_inside h.1 h.2
  · exact bitAt_outside (by omega)

/-- Bit `k` of a read, the first one most significant, as RESULT holds it. -/
theorem getLsbD_readBits (rd : Int → Byte) (off : Int) {n k : Nat} (hn : n ≤ 53) (hk : k < n) :
    ((BitVec.ofNat 53 (readBits rd off n)).getLsbD (n - 1 - k)).toNat = bitAt rd (off + k) := by
  have hlt : readBits rd off n < 2 ^ 53 := readBits_lt_result rd off (n := n) (by exact_mod_cast hn)
  rw [BitVec.getLsbD, BitVec.toNat_ofNat, Nat.mod_eq_of_lt hlt, Nat.toNat_testBit, ← readBits_bit rd off hk,
    Nat.and_one_is_mod, Nat.shiftRight_eq_div_pow]

/-- An RDBITS whose LEN and length are in their domains raises OFF_NEG or PAST_END, or succeeds. -/
theorem exec_rdbits_inDomain_status {off n : Int} {s t : State} (hlen : s.len.toNat ≤ s.cfg.nbytesMax) (h0 : 0 ≤ n)
    (h53 : n ≤ 53) (ht : exec (.rdbits off n) s = .next t) :
    t.status = 0x606#32 ∨ t.status = 0x506#32 ∨ t.status = 0x12#32 := by
  obtain ⟨hcap, -⟩ | ⟨-, hn, -⟩ | ⟨-, -, -, hc | hc⟩ | ⟨-, -, -, -, -, hc⟩ := exec_rdbits_cases off n s
  · omega
  · omega
  · obtain rfl := Host.Outcome.next.inj (hc.symm.trans ht)
    exact .inl (Status.violation_eq .offNeg)
  · obtain rfl := Host.Outcome.next.inj (hc.symm.trans ht)
    exact .inr (.inl (Status.violation_eq .pastEnd))
  · obtain rfl := Host.Outcome.next.inj (hc.symm.trans ht)
    exact .inr (.inr Status.doneScalar_eq)

/-- OFF_NEG and PAST_END are raised after the checks of LEN and of the length. -/
theorem inDomain_of_offsetError {off n : Int} {s t : State} (ht : exec (.rdbits off n) s = .next t)
    (hst : t.status = 0x606#32 ∨ t.status = 0x506#32) : s.len.toNat ≤ s.cfg.nbytesMax ∧ 0 ≤ n ∧ n ≤ 53 := by
  obtain ⟨-, hc⟩ | ⟨-, -, hc⟩ | ⟨hlen, h0, h53, -⟩ | ⟨hlen, h0, h53, -⟩ := exec_rdbits_cases off n s
  · obtain rfl := Host.Outcome.next.inj (hc.symm.trans ht)
    exact absurd hst (by rw [State.raise_status]; decide)
  · obtain rfl := Host.Outcome.next.inj (hc.symm.trans ht)
    exact absurd hst (by rw [State.raise_status]; decide)
  · exact ⟨hlen, h0, h53⟩
  · exact ⟨hlen, h0, h53⟩

/-- Neither read ends with BUF_CAP or LEN_DOMAIN when LEN and the length are in their domains. -/
theorem exec_reads_inDomain_ne {off n : Int} {s : State} (hlen : s.len.toNat ≤ s.cfg.nbytesMax) (h0 : 0 ≤ n)
    (h53 : n ≤ 53) {w : Word} (hw : w = 0xA06#32 ∨ w = 0x206#32) :
    exec (.rdbits off n) s ≠ .next { s with status := w } ∧ exec (.rdbitsL off n) s ≠ .next { s with status := w } := by
  constructor
  · intro h
    have hst : w = 0x606#32 ∨ w = 0x506#32 ∨ w = 0x12#32 := exec_rdbits_inDomain_status hlen h0 h53 h
    obtain rfl | rfl := hw <;> revert hst <;> decide
  · intro h
    rw [exec_rdbitsL_of_inDomain hlen h0 h53] at h
    have hst : Status.doneScalar = w := congrArg State.status (Host.Outcome.next.inj h)
    obtain rfl | rfl := hw <;> revert hst <;> decide

/-- Settles O33: inside the input the two reads see the same bits; the checks they share come first. -/
theorem strictAndLooseReadsAgree : Obligations.StrictAndLooseReadsAgree := by
  refine fun off n s => ⟨fun t ht herr => ?success, fun t ht hst => ?outside, fun w hw => ?shared⟩
  case success =>
    obtain ⟨hlen, h0, h53, hoff, hend, rfl⟩ := exec_rdbits_success ht herr
    rw [exec_rdbitsL_of_inDomain hlen h0 h53, readBits_inside hoff (by omega)]
  case outside =>
    obtain ⟨hlen, h0, h53⟩ := inDomain_of_offsetError ht hst
    obtain ⟨hresult, hdone, -⟩ := s.returnScalar_spec (readBits_lt_result (memReadLoose s) off h53)
    refine ⟨_, exec_rdbitsL_of_inDomain hlen h0 h53, hdone, ?_, fun k hk => ?_⟩
    · rw [hresult]
      exact readBits_lt _ _ _
    · rw [State.returnScalar_result, getLsbD_readBits _ _ (by omega) hk, bitAt_memReadLoose]
  case shared =>
    by_cases hcap : s.cfg.nbytesMax < s.len.toNat
    · rw [exec_rdbits_of_bufCap hcap, exec_rdbitsL_of_bufCap hcap]
    have hlen := not_lt.mp hcap
    by_cases hn : n < 0 ∨ n > 53
    · rw [exec_rdbits_of_lenDomain hlen hn, exec_rdbitsL_of_lenDomain hlen hn]
    · obtain ⟨hstrict, hloose⟩ := exec_reads_inDomain_ne (off := off) (n := n) hlen (by omega) (by omega) hw
      exact iff_of_false hstrict hloose

end Sys2Proof.Machine
end

section
/-! PROOFS. The statements about the bit span of the single-byte extractor (spec/40_byte_extractor.md R111, R115, R117),
from the laws of the bit stream of which a byte is a piece. -/

namespace Sys2Proof.Machine

/-! ## The span as a read -/

/-- A span of a byte is a read of the stream that repeats it. -/
theorem xbyte_eq_readBits_const (b : Byte) {o n : Nat} (h : o + n ≤ 8) : xbyte b o n = readBits (fun _ => b) o n := by
  simpa using xbyte_eq_readBits (fun _ => b) 0 h

/-- A bit of the stream that repeats a byte, inside its first byte. -/
theorem bitAt_const (b : Byte) {p : Nat} (hp : p ≤ 7) : bitAt (fun _ => b) p = (b.toNat >>> (7 - p)) &&& 1 := by
  rw [bitAt, show (7 - (p : Int) % 8).toNat = 7 - p by omega]

theorem xbyte_le (b : Byte) (o n : Nat) : xbyte b o n ≤ 2 ^ n - 1 := Nat.le_sub_one_of_lt (xbyte_lt b o n)

/-- All eight bits are the byte. -/
theorem xbyte_whole (b : Byte) : xbyte b 0 8 = b.toNat := by
  rw [show (0 : Int) = (0 : Nat) from rfl, show (8 : Int) = (8 : Nat) from rfl, xbyte_eq]
  simpa using b.isLt

/-- Settles O27: the definition of a read is the sum. -/
theorem xbyteIsTheSumOfItsBits : Obligations.XbyteIsTheSumOfItsBits := by
  refine fun b o n ho h => ⟨?sum, xbyte_le b o n, ?none, ?all⟩
  case sum =>
    rw [xbyte_eq_readBits_const b h, readBits]
    congr 1
    refine List.map_congr_left fun k hk => ?_
    have hk := List.mem_range.mp hk
    rw [← Nat.cast_add, bitAt_const b (by omega), Nat.sub_add_eq]
  case none =>
    rintro rfl
    exact xbyte_eq_readBits_const b h
  case all =>
    rintro rfl rfl
    exact xbyte_whole b

/-- A span is its first bits, shifted, plus the others. -/
theorem xbyte_split (b : Byte) {o n1 n2 : Nat} (h : o + n1 + n2 ≤ 8) :
    xbyte b o (n1 + n2 : Nat) = xbyte b o n1 * 2 ^ n2 + xbyte b (o + n1 : Nat) n2 := by
  rw [xbyte_eq_readBits_const b (by omega), xbyte_eq_readBits_const b (by omega), xbyte_eq_readBits_const b h,
    readBits_add, Nat.cast_add]

/-- Settles O28: bounds, and the laws of adjacent spans, of zeros and of ones. -/
theorem xbyteLaws : Obligations.XbyteLaws := by
  refine ⟨fun b o n ho h => ⟨xbyte_le b o n, ?bound⟩, fun b o n1 n2 ho h => ⟨fun _ => xbyte_split b h, ?empty⟩,
    fun b o ho => ?reassembly, fun o n ho h => ⟨?zeros, ?ones⟩⟩
  case bound =>
    have := Nat.pow_le_pow_right (n := 2) (by decide) (show n ≤ 8 by omega)
    omega
  case empty =>
    rintro rfl
    rfl
  case reassembly =>
    have h := xbyte_split b (o := 0) (n1 := o) (n2 := 8 - o) (by omega)
    rwa [show o + (8 - o) = 8 by omega, Nat.zero_add, show ((8 : Nat) : Int) = 8 from rfl, Nat.cast_zero,
      xbyte_whole] at h
  case zeros =>
    rw [xbyte_eq_readBits_const _ h]
    exact readBits_of_zeros fun k _ => bitAt_of_zero rfl
  case ones =>
    rw [xbyte_eq_readBits_const _ h]
    exact readBits_of_ones fun k _ => bitAt_of_allOnes rfl

/-! ## XBYTE against RDBITS on a buffer of one byte (R117) -/

/-- In the extractor's domain a strict read of the first byte is its span. -/
theorem xbyte_eq_readBits_memRead (s : State) {o n : Int} (h0 : 0 ≤ o) (hn : 0 ≤ n) (h : o + n ≤ 8) :
    xbyte (Memory.read s.buf 0) o n = readBits (memRead s) o n.toNat := by
  lift o to Nat using h0
  lift n to Nat using hn
  have hspan := xbyte_eq_readBits (memRead s) 0 (o := o) (n := n) (by omega)
  rw [Int.mul_zero, Int.zero_add] at hspan
  exact hspan

/-- XBYTE fails exactly outside the extractor's domain. -/
theorem err_exec_xbyte_iff {b : Byte} {o n : Int} {s t : State} (ht : exec (.xbyte b o n) s = .next t) :
    Status.err t.status = true ↔ ¬(0 ≤ o ∧ o ≤ 7 ∧ 0 ≤ n ∧ o + n ≤ 8) := by
  have hraise : ∀ {c}, exec (.xbyte b o n) s = .next (s.raise c) → Status.err t.status = true := fun hc =>
    Host.Outcome.next.inj (hc.symm.trans ht) ▸ Status.err_violation _
  by_cases ho : o < 0 ∨ o > 7
  · exact iff_of_true (hraise (exec_xbyte_of_offDomain ho)) (by omega)
  by_cases hn : n < 0
  · exact iff_of_true (hraise (exec_xbyte_of_lenDomain (by omega) (by omega) hn)) (by omega)
  by_cases hsum : o + n > 8
  · exact iff_of_true (hraise (exec_xbyte_of_byteOverflow (by omega) (by omega) (by omega) hsum)) (by omega)
  · have hc := exec_xbyte_of_inside (b := b) (o := o) (n := n) (s := s) (by omega) (by omega) (by omega) (by omega)
    obtain rfl := Host.Outcome.next.inj (hc.symm.trans ht)
    exact iff_of_false (by simp) (by omega)

/-- RDBITS fails exactly when one of its checks does. -/
theorem err_exec_rdbits_iff {off n : Int} {s t : State} (hlen : s.len.toNat ≤ s.cfg.nbytesMax)
    (ht : exec (.rdbits off n) s = .next t) :
    Status.err t.status = true ↔ ¬(0 ≤ n ∧ n ≤ 53 ∧ 0 ≤ off ∧ off + n ≤ 8 * (s.len.toNat : Int)) := by
  constructor
  · rintro herr ⟨h0, h53, hoff, hend⟩
    obtain rfl := Host.Outcome.next.inj ((exec_rdbits_of_inside hlen h0 h53 hoff hend).symm.trans ht)
    simp at herr
  · intro hout
    by_contra herr
    obtain ⟨-, h0, h53, hoff, hend, -⟩ := exec_rdbits_success ht (by simpa using herr)
    exact hout ⟨h0, h53, hoff, hend⟩

/-- Settles O29: on a buffer of one byte the reader's domain ends at 8 as the extractor's does, and each clause is one
check of each command. -/
theorem xbyteAgreesWithTheReader : Obligations.XbyteAgreesWithTheReader := by
  rintro _ o n s ⟨hcfg, -, -⟩ hone rfl
  have hlen1 : s.len.toNat = 1 := by rw [hone]; rfl
  have hlen : s.len.toNat ≤ s.cfg.nbytesMax := by omega
  have hoffDomain : s.raise .offDomain = { s with status := 0x306#32 } := s.raise_eq .offDomain
  have hlenDomain : s.raise .lenDomain = { s with status := 0x206#32 } := s.raise_eq .lenDomain
  have hoverflow : s.raise .byteOverflow = { s with status := 0x406#32 } := s.raise_eq .byteOverflow
  have hpastEnd : s.raise .pastEnd = { s with status := 0x506#32 } := s.raise_eq .pastEnd
  have hoffNeg : s.raise .offNeg = { s with status := 0x606#32 } := s.raise_eq .offNeg
  rw [← hoffDomain, ← hlenDomain, ← hoverflow, ← hpastEnd, ← hoffNeg]
  refine ⟨fun h0 h7 hn hsum => ?inside, fun h0 h7 hn h53 hsum => ?acrossTheEnd,
    fun h8 hn h53 hpast => ?pastTheEnd, ?atTheEnd, fun hneg => ?beforeTheStart, fun h0 h7 hn => ?negativeLength,
    fun h0 h7 hn => ?longLength, fun t u ht hu hend => ?bothFail⟩
  case inside =>
    rw [exec_xbyte_of_inside h0 h7 hn hsum, exec_rdbits_of_inside hlen hn (by omega) h0 (by omega),
      xbyte_eq_readBits_memRead s h0 hn hsum]
  case acrossTheEnd =>
    exact ⟨exec_xbyte_of_byteOverflow h0 h7 hn hsum, exec_rdbits_of_pastEnd hlen hn h53 h0 (by omega)⟩
  case pastTheEnd =>
    exact ⟨exec_xbyte_of_offDomain (by omega), exec_rdbits_of_pastEnd hlen hn h53 (by omega) (by omega)⟩
  case beforeTheStart =>
    exact ⟨exec_xbyte_of_offDomain (.inl hneg), fun hn h53 => exec_rdbits_of_offNeg hlen hn h53 hneg,
      exec_rdbits_of_lenDomain hlen⟩
  case negativeLength => exact ⟨exec_xbyte_of_lenDomain h0 h7 hn, exec_rdbits_of_lenDomain hlen (.inl hn)⟩
  case longLength =>
    exact ⟨exec_xbyte_of_byteOverflow h0 h7 (by omega) (by omega), exec_rdbits_of_lenDomain hlen (.inr hn)⟩
  case atTheEnd =>
    rintro rfl rfl
    have hread := exec_rdbits_of_inside (off := 8) (n := 0) hlen le_rfl (by decide) (by decide) (by omega)
    rw [Int.toNat_zero, readBits_zero] at hread
    obtain ⟨hresult, hst, -⟩ := s.returnScalar_zero_spec
    exact ⟨exec_xbyte_of_offDomain (by decide), _, hread, hst, hresult⟩
  case bothFail =>
    rw [Bool.eq_iff_iff, err_exec_xbyte_iff ht, err_exec_rdbits_iff hlen hu]
    omega

end Sys2Proof.Machine
end

section
/-! PROOFS. Numerals: lists of digits compare lexicographically as the numbers they stand for. The bytes of an input and
the groups of the unpacker are such lists (spec/42_bit_unpacker.md R167, spec/43_crockford_encoder.md R186). -/

namespace Sys2Proof.Machine

/-- The number with these digits in base `B`, the most significant first. -/
def numeral (B : Nat) (digits : List Nat) : Nat := Nat.ofDigits B digits.reverse

theorem numeral_cons (B d : Nat) (digits : List Nat) :
    numeral B (d :: digits) = d * B ^ digits.length + numeral B digits := by
  rw [numeral, List.reverse_cons, Nat.ofDigits_append, Nat.ofDigits_singleton, List.length_reverse, Nat.add_comm,
    Nat.mul_comm, numeral]

theorem numeral_lt {B : Nat} (hB : 1 < B) {digits : List Nat} (h : ∀ d ∈ digits, d < B) :
    numeral B digits < B ^ digits.length := by
  have hrev : ∀ d ∈ digits.reverse, d < B := fun d hd => h d (List.mem_reverse.mp hd)
  simpa [numeral] using Nat.ofDigits_lt_base_pow_length hB hrev

/-- Numbers with a common weight compare by the leading digit, then by the rest. -/
theorem digit_add_lt_iff {x y a b P : Nat} (ha : a < P) (hb : b < P) :
    x * P + a < y * P + b ↔ x < y ∨ x = y ∧ a < b := by
  obtain h | rfl | h := lt_trichotomy x y
  · have hstep : (x + 1) * P ≤ y * P := Nat.mul_le_mul_right P h
    rw [Nat.succ_mul] at hstep
    exact iff_of_true (by omega) (.inl h)
  · simp
  · have hstep : (y + 1) * P ≤ x * P := Nat.mul_le_mul_right P h
    rw [Nat.succ_mul] at hstep
    exact iff_of_false (by omega) (by omega)

/-- Digit lists of one length compare as their numbers. -/
theorem lt_iff_numeral_lt {B : Nat} (hB : 1 < B) {xs ys : List Nat} (hlen : xs.length = ys.length)
    (hx : ∀ d ∈ xs, d < B) (hy : ∀ d ∈ ys, d < B) : xs < ys ↔ numeral B xs < numeral B ys := by
  induction xs generalizing ys with
  | nil =>
    obtain rfl := List.length_eq_zero_iff.mp hlen.symm
    simp
  | cons x xs ih =>
    cases ys with
    | nil => cases hlen
    | cons y ys =>
      rw [List.forall_mem_cons] at hx hy
      have hlen : xs.length = ys.length := Nat.succ.inj hlen
      rw [List.cons_lt_cons_iff, ih hlen hx.2 hy.2, numeral_cons, numeral_cons, hlen,
        digit_add_lt_iff (hlen ▸ numeral_lt hB hx.2) (numeral_lt hB hy.2)]

theorem numeral_map_range (B : Nat) (f : Nat → Nat) (m : Nat) :
    numeral B ((List.range m).map f) = ((List.range m).map fun i => f i * B ^ (m - 1 - i)).sum := by
  induction m with
  | zero => rfl
  | succ m ih =>
    rw [sum_digits_succ, ← ih, numeral, List.range_succ, List.map_append, List.reverse_append]
    simp [numeral, Nat.ofDigits_cons, Nat.add_comm]

/-- The digits of `m` places compare as the number they stand for. -/
theorem map_range_lt_iff {B : Nat} (hB : 1 < B) {f g : Nat → Nat} (hf : ∀ i, f i < B) (hg : ∀ i, g i < B) (m : Nat) :
    (List.range m).map f < (List.range m).map g ↔
      ((List.range m).map fun i => f i * B ^ (m - 1 - i)).sum <
        ((List.range m).map fun i => g i * B ^ (m - 1 - i)).sum := by
  rw [lt_iff_numeral_lt hB (by simp) (by simpa using fun i _ => hf i) (by simpa using fun i _ => hg i),
    numeral_map_range, numeral_map_range]

end Sys2Proof.Machine
end

section
/-! PROOFS. The statements about the groups of the unpacker (spec/42_bit_unpacker.md R166, R167). -/

namespace Sys2Proof.Machine

/-! ## The groups as spans of the stream -/

theorem group_natCast (s : State) (bits : Nat) (off : Int) (i : Nat) :
    group s bits off i = readBits (memReadLoose s) (off + i * bits) bits := rfl

theorem group_lt (s : State) (bits : Nat) (off : Int) (i : Nat) : group s bits off i < 2 ^ bits :=
  readBits_lt _ _ _

/-- A read of whole groups is the numeral of the groups. -/
theorem readBits_groups (s : State) (bits : Nat) (off : Int) (m : Nat) :
    readBits (memReadLoose s) off (m * bits) =
      ((List.range m).map fun i => group s bits off i * (2 ^ bits) ^ (m - 1 - i)).sum := by
  induction m with
  | zero => simp
  | succ m ih =>
    rw [sum_digits_succ, ← ih, Nat.succ_mul, readBits_add, group_natCast, Nat.cast_mul, Nat.mul_comm]

/-- The stream from the offset to the end of the groups goes `pad` bits beyond the input, `pad` below the width
(R166). -/
theorem groupCount_pad_bounds (s : State) {bits : Int} (off : Int) (hbits : 1 ≤ bits) :
    0 ≤ off + groupCount s bits off * bits - 8 * (s.len.toNat : Int) ∧
      off + groupCount s bits off * bits - 8 * (s.len.toNat : Int) ≤ bits - 1 := by
  have hle : 8 * (s.len.toNat : Int) - off ≤ groupCount s bits off * bits := le_ceilDiv_mul hbits
  have hlt : groupCount s bits off * bits < 8 * (s.len.toNat : Int) - off + bits := ceilDiv_mul_lt hbits
  omega

/-- Settles O41: the positions before the start and past the end read as 0, and `ceilDiv` leaves a pad below the
width. -/
theorem paddingOfUnpack : Obligations.PaddingOfUnpack := by
  intro s bits off h1 h8
  have hpad := groupCount_pad_bounds s (bits := bits) off (by omega)
  refine ⟨fun i k hk hpos => ?bit, fun i hi => ?group, fun N pad hN h1N hpadN => ?last, fun _ => hpad, ?divides⟩
  case bit => rw [group_natCast, readBits_bit _ _ hk, bitAt_outside (.inl hpos)]
  case group => rw [group_natCast, readBits_outside (.inl (by linarith))]
  case last =>
    rw [hN, ← hpadN] at hpad
    have hlast : off + (N - 1 : Nat) * (bits : Int) + (bits - pad : Nat) = 8 * (s.len.toNat : Int) := by
      rw [Nat.cast_sub h1N, Nat.cast_sub (by omega), hpadN]
      push_cast
      ring
    have hread := readBits_trailingZeros (r := pad) hlast
    rw [Nat.sub_add_cancel (by omega)] at hread
    rw [group_natCast, hread, Nat.mul_mod_left]
  case divides =>
    constructor
    · intro h
      exact ⟨groupCount s bits off, by linarith⟩
    · rintro ⟨q, hq⟩
      have hmul : off + groupCount s bits off * bits - 8 * (s.len.toNat : Int) =
          bits * (groupCount s bits off - q) := by
        rw [Int.mul_sub, ← hq]
        ring
      exact Int.eq_zero_of_dvd_of_nonneg_of_lt hpad.1 (by omega) ⟨_, hmul⟩

/-- A group of eight bits at a byte of the input is that byte. -/
theorem group_eight (s : State) {off : Int} {i j : Nat} (h : off + i * 8 = 8 * j) (hj : j < s.len.toNat) :
    group s 8 off i = (Memory.read s.buf j).toNat := by
  have hgroup : group s 8 off i = readBits (memReadLoose s) (off + i * 8) 8 := rfl
  rw [hgroup, h, readBits_byte, memReadLoose_inside (by omega) (by omega)]
  rfl

/-- Settles O42: the groups are spans of the stream, at widths 8 and 1 its bytes and its bits. -/
theorem unpackerLaws : Obligations.UnpackerLaws := by
  refine ⟨fun s bits off i => Nat.le_sub_one_of_lt (group_lt s bits off i), fun s bits off m => ?reassembly,
    fun s => ⟨?bytesCount, fun i => group_eight s (by omega)⟩,
    fun s m => ⟨?paddedCount, fun i hi => ?padding, fun i => group_eight s (by push_cast; omega)⟩,
    fun s => ⟨?bitsCount, fun i => ?bit⟩⟩
  case reassembly => simpa only [pow_mul] using readBits_groups s bits off m
  case padding =>
    have hgroup : group s 8 (-8 * m) i = readBits (memReadLoose s) (-8 * m + i * 8) 8 := rfl
    rw [hgroup, readBits_outside (.inl (by omega))]
  case bit =>
    have hgroup : group s 1 0 i = readBits (memReadLoose s) (0 + i * 1) 1 := rfl
    rw [hgroup, readBits_one, Int.zero_add, Int.mul_one]
  case bytesCount | paddedCount | bitsCount =>
    simp only [groupCount, ceilDiv]
    omega

/-! ## Order (R167 (g)) -/

/-- The value of an input: all its bits, read as one number. -/
def inputValue (s : State) : Nat := readBits (memReadLoose s) 0 (8 * s.len.toNat)

/-- The value of an input is the big-endian integer of its bytes. -/
theorem inputValue_eq_bigEndian (s : State) : inputValue s = bigEndian (memRead s) 0 s.len.toNat := by
  rw [inputValue, readBits_inside le_rfl (by omega)]
  exact readBits_bytes (memRead s) 0 s.len.toNat

/-- The big-endian integer of the first bytes of BUF as the numeral of these bytes. -/
theorem bigEndian_memRead (s : State) (m : Nat) :
    bigEndian (memRead s) 0 m =
      ((List.range m).map fun i => (Memory.read s.buf i).toNat * 256 ^ (m - 1 - i)).sum := by
  simp only [bigEndian, Int.zero_add]
  rfl

/-- Inputs of one length compare as their values. -/
theorem inputBytes_lt_iff {s u : State} (hlen : u.len = s.len) :
    s.inputBytes < u.inputBytes ↔ inputValue s < inputValue u := by
  have hbyte : ∀ (v : State) (i : Nat), (Memory.read v.buf i).toNat < 256 := fun v i => (Memory.read v.buf i).isLt
  rw [State.inputBytes, State.inputBytes, hlen, map_range_lt_iff (by decide) (hbyte s) (hbyte u),
    inputValue_eq_bigEndian, inputValue_eq_bigEndian, hlen, bigEndian_memRead, bigEndian_memRead]

/-- The groups of two inputs compare as the reads of the stream they cover. -/
theorem groups_lt_iff_readBits_lt (s u : State) {bits : Nat} (h1 : 1 ≤ bits) (off : Int) (N : Nat) :
    ((List.range N).map fun i => group s bits off i) < ((List.range N).map fun i => group u bits off i) ↔
      readBits (memReadLoose s) off (N * bits) < readBits (memReadLoose u) off (N * bits) := by
  rw [map_range_lt_iff (Nat.one_lt_two_pow (by omega)) (group_lt s bits off) (group_lt u bits off), readBits_groups,
    readBits_groups]

/-- Groups from an offset at or before the start to the end of the input or beyond read its value, followed by the
padding. -/
theorem readBits_cover {s : State} {off : Int} {n pad : Nat} (hoff : off ≤ 0)
    (hn : off + n = 8 * (s.len.toNat : Int) + pad) :
    readBits (memReadLoose s) off n = inputValue s * 2 ^ pad := by
  have hsplit : n = (-off).toNat + (8 * s.len.toNat + pad) := by omega
  rw [hsplit, readBits_leadingZeros (by omega), readBits_trailingZeros (by omega), inputValue]

/-- The groups of two inputs of one length compare as the inputs do, when they cover them (R167 (g)). -/
theorem groups_lt_iff_inputBytes_lt {s u : State} (hlen : u.len = s.len) {bits : Nat} (h1 : 1 ≤ bits) {off : Int}
    (hoff : off ≤ 0) {N : Nat} (hN : groupCount s bits off = N) :
    ((List.range N).map fun i => group s bits off i) < ((List.range N).map fun i => group u bits off i) ↔
      s.inputBytes < u.inputBytes := by
  obtain ⟨hpad, -⟩ := groupCount_pad_bounds s (bits := bits) off (by omega)
  obtain ⟨pad, hpad⟩ := Int.eq_ofNat_of_zero_le hpad
  have hcover : off + (N * bits : Nat) = 8 * (s.len.toNat : Int) + pad := by
    rw [← hpad, hN]
    push_cast
    ring
  rw [groups_lt_iff_readBits_lt s u h1, inputBytes_lt_iff hlen, readBits_cover hoff hcover,
    readBits_cover hoff (hlen ▸ hcover), Nat.mul_lt_mul_right (Nat.two_pow_pos pad)]

/-- Settles O43: groups compare as the inputs do, so neither compares less when the inputs are equal. -/
theorem unpackPreservesOrder : Obligations.UnpackPreservesOrder := by
  intro s u bits off N h1 _ hoff hlen hN
  have hlt := groups_lt_iff_inputBytes_lt hlen h1 hoff hN
  have hcount : groupCount u bits off = groupCount s bits off := by rw [groupCount, groupCount, hlen]
  have hgt := groups_lt_iff_inputBytes_lt hlen.symm h1 hoff (hcount.trans hN)
  refine ⟨hlt.mpr, fun heq => le_antisymm (not_lt.mp fun h => ?_) (not_lt.mp fun h => ?_)⟩
  · exact (hgt.mp h).ne heq.symm
  · exact (hlt.mp h).ne heq

end Sys2Proof.Machine
end

section
/-! PROOFS. The statements about the alphabet, the groups and the text of an identifier (spec/43_crockford_encoder.md
R182, R185 to R190). -/

namespace Sys2Proof.Machine

/-! ## The alphabet (R182) -/

/-- The character codes rise with the values they stand for. -/
theorem alpha_strictMonoOn : StrictMonoOn (fun v => (alpha v).toNat) (Set.Iio 32) := by
  have hrise : ∀ w < 32, ∀ v < w, (alpha v).toNat < (alpha w).toNat := by decide
  exact fun v _ w hw hvw => hrise w hw v hvw

/-- Settles O45, entry by entry. -/
theorem alphabetTable : Obligations.AlphabetTable := by
  refine ⟨fun v h9 => ?digits, fun v hlo hhi => ?AtoH, fun v hlo hhi => ?JK, fun v hlo hhi => ?MN,
    fun v hlo hhi => ?PtoT, fun v hlo hhi => ?VtoZ,
    fun v w hvw hw => alpha_strictMonoOn (hvw.trans hw) hw hvw, by decide⟩
  all_goals interval_cases v <;> rfl

/-! ## Sequences as the host reads them -/

/-- After a sequence completion the host reads the sequence. -/
theorem State.outSequence_returnSequence {bytes : List Byte} (s : State) (h : bytes.length < 2 ^ 32) :
    (s.returnSequence bytes).outSequence = bytes.map some := by
  rw [State.outSequence, s.outLen_toNat_returnSequence h]
  refine List.ext_getElem (by simp) fun i hi _ => ?_
  have hi : i < bytes.length := by simpa using hi
  simp [s.outValue?_returnSequence h, hi]

/-! ## An identifier: LEN = 21 -/

section
variable {s : State} (hlen : s.len = 21#32)
include hlen

theorem len_toNat_identifier : s.len.toNat = 21 := by rw [hlen]; rfl

theorem len_le_of_identifier (hcfg : s.cfg.Wf) : s.len.toNat ≤ s.cfg.nbytesMax :=
  (len_toNat_identifier hlen).trans_le hcfg.1

/-- 168 bits and two before them make 34 groups of five. -/
theorem groupCount_identifier : groupCount s 5 (-2) = (34 : Nat) := by
  rw [groupCount, len_toNat_identifier hlen]
  rfl

/-- CROCK returns the text of an identifier. -/
theorem exec_crock_eq_text (hcfg : s.cfg.Wf) : exec .crock s = .next (s.returnSequence (crockText s)) :=
  exec_crock_of_identifier (len_le_of_identifier hlen hcfg) (len_toNat_identifier hlen)

/-- After CROCK the host reads the text of the identifier. -/
theorem outSequence_of_exec_crock (hcfg : s.cfg.Wf) {t : State} (ht : exec .crock s = .next t) :
    t.outSequence = (crockText s).map some := by
  obtain rfl := Host.Outcome.next.inj ((exec_crock_eq_text hlen hcfg).symm.trans ht)
  exact s.outSequence_returnSequence (by simp)

/-- A loose read inside the 168 bits of an identifier is the strict one. -/
theorem readBits_identifier {off : Int} {n : Nat} (h0 : 0 ≤ off) (hend : off + n ≤ 168) :
    readBits (memReadLoose s) off n = readBits (memRead s) off n :=
  readBits_inside h0 (by rw [len_toNat_identifier hlen]; omega)

theorem inputValue_identifier : inputValue s = bigEndian (memRead s) 0 21 := by
  rw [inputValue_eq_bigEndian, len_toNat_identifier hlen]

end

/-- A group as a digit of a read that encloses it. -/
theorem group_eq_digit (s : State) (off : Int) {i a n : Nat} (r : Nat) (ha : off + a = -2 + 5 * (i : Int))
    (hn : a + 5 + r = n) : group s 5 (-2) i = (readBits (memReadLoose s) off n >>> r) &&& 31 := by
  rw [group_five_eq, ← ha, ← hn]
  exact (readBits_shiftRight_and _ off a 5 r).symm

theorem group_five_lt (s : State) (i : Nat) : group s 5 (-2) i < 32 := group_lt s 5 (-2) i

/-- Settles O46: both commands pass their checks, and each stores the 34 groups, CROCK through the alphabet. -/
theorem crockIsAlphaOfUnpack : Obligations.CrockIsAlphaOfUnpack := by
  intro s hcfg hlen
  obtain ⟨htLen, -, -, htStatus, -⟩ := s.returnSequence_crockText_spec
  obtain ⟨huLen, huValue, -, huStatus, -⟩ :=
    s.returnSequence_groups_spec (bits := 5) (by decide) (-2) (n := 34) (by decide)
  refine ⟨_, _, exec_crock_eq_text hlen hcfg,
    exec_unpack_of_fits (len_le_of_identifier hlen hcfg) (by decide) (by decide) (groupCount_identifier hlen) hcfg.2.1,
    htStatus, huStatus, htLen, BitVec.eq_of_toNat_eq huLen, fun i hi => ?_⟩
  obtain ⟨g, hg, hgroup⟩ := huValue i hi
  refine ⟨g, hg, hgroup.trans_lt (group_five_lt s i), ?_⟩
  rw [s.outValue?_returnSequence_crockText, getElem?_crockText s hi, hgroup]

/-- Settles O47: the value of the identifier, read from two bits before it on, has the groups as its digits. -/
theorem crockGroupsAreBase32Digits : Obligations.CrockGroupsAreBase32Digits := by
  intro s hlen
  refine ⟨?bound, fun i hi => ?digit⟩
  case bound =>
    rw [← inputValue_identifier hlen, inputValue, len_toNat_identifier hlen]
    exact readBits_lt _ _ _
  case digit =>
    have hcover := readBits_cover (s := s) (off := -2) (n := 170) (pad := 0) (by decide)
      (by rw [len_toNat_identifier hlen]; rfl)
    rw [pow_zero, Nat.mul_one, inputValue_identifier hlen] at hcover
    rw [← hcover]
    exact group_eq_digit s (-2) (a := 5 * i) _ (by push_cast; ring) (by omega)

/-! ## Layout (R187) -/

/-- The first group holds the first three bits. -/
theorem group_zero_eq (s : State) : group s 5 (-2) 0 = readBits (memReadLoose s) 0 3 := by
  have h := readBits_leadingZeros (s := s) (off := -2) (a := 2) (n := 3) rfl
  rwa [show (-2 : Int) = -2 + 5 * (0 : Nat) from rfl, ← group_five_eq] at h

theorem group_zero_le (s : State) : group s 5 (-2) 0 ≤ 7 := by
  rw [group_zero_eq]
  exact Nat.le_of_lt_succ (readBits_lt _ _ _)

/-- The text of an identifier whose bits are all 0. -/
theorem crockText_of_zeros {s : State} (h : ∀ p, bitAt (memReadLoose s) p = 0) :
    crockText s = List.replicate 34 0x30#8 := by
  have hgroup : ∀ i, group s 5 (-2) i = 0 := fun i => readBits_of_zeros fun k _ => h _
  simp only [crockText, hgroup, List.map_const', List.length_range]
  rfl

/-- The text of an identifier whose bits are all 1. -/
theorem crockText_of_ones {s : State} (h : ∀ p : Nat, p < 168 → bitAt (memReadLoose s) p = 1) :
    crockText s = 0x37#8 :: List.replicate 33 0x5A#8 := by
  have hfirst : group s 5 (-2) 0 = 7 := by
    rw [group_zero_eq]
    exact readBits_of_ones fun k hk => by simpa using h k (by omega)
  have hrest : ∀ i ∈ List.range 33, alpha (group s 5 (-2) (i + 1)) = 0x5A#8 := by
    intro i hi
    have hi := List.mem_range.mp hi
    have hgroup : group s 5 (-2) (i + 1) = 31 := by
      rw [group_five_eq]
      refine readBits_of_ones fun k hk => ?_
      rw [show -2 + 5 * ((i + 1 : Nat) : Int) + k = (3 + 5 * i + k : Nat) by push_cast; ring]
      exact h _ (by omega)
    rw [hgroup]
    rfl
  rw [crockText, List.range_succ_eq_map, List.map_cons, hfirst, List.map_map]
  refine congrArg _ ((List.map_congr_left hrest).trans ?_)
  rw [List.map_const', List.length_range]

/-- Settles O48: each group is a digit of the timestamp, of the random bits or of the last byte. -/
theorem crockTextLayout : Obligations.CrockTextLayout := by
  intro s hcfg hlen
  refine ⟨?first, fun i hi => ?timestamp, fun i hlo hhi => ?random, ?last, fun t ht => ?firstChar,
    fun hz t ht => ?zeros, fun ho t ht => ?ones⟩
  case first => exact group_zero_le s
  case timestamp =>
    have hts : bigEndian (memRead s) 0 6 = readBits (memReadLoose s) (-2) 50 :=
      calc bigEndian (memRead s) 0 6
        _ = readBits (memRead s) 0 48 := (readBits_bytes (memRead s) 0 6).symm
        _ = readBits (memReadLoose s) 0 48 := (readBits_identifier hlen (by decide) (by decide)).symm
        _ = readBits (memReadLoose s) (-2) 50 := (readBits_leadingZeros (a := 2) (n := 48) rfl).symm
    rw [hts]
    exact group_eq_digit s (-2) (a := 5 * i) _ (by push_cast; ring) (by omega)
  case random =>
    have hrandom : bigEndian (memRead s) 6 15 = readBits (memReadLoose s) 48 120 :=
      calc bigEndian (memRead s) 6 15
        _ = readBits (memRead s) 48 120 := (readBits_bytes (memRead s) 6 15).symm
        _ = readBits (memReadLoose s) 48 120 := (readBits_identifier hlen (by decide) (by decide)).symm
    rw [hrandom]
    exact group_eq_digit s 48 (a := 5 * i - 50) _ (by omega) (by omega)
  case last =>
    have hbyte : (Memory.read s.buf 20).toNat = readBits (memReadLoose s) 160 8 :=
      calc (Memory.read s.buf 20).toNat
        _ = readBits (memRead s) 160 8 := (readBits_byte (memRead s) 20).symm
        _ = readBits (memReadLoose s) 160 8 := (readBits_identifier hlen (by decide) (by decide)).symm
    rw [hbyte]
    exact group_eq_digit s 160 (i := 33) (a := 3) 0 rfl rfl
  case firstChar =>
    obtain rfl := Host.Outcome.next.inj ((exec_crock_eq_text hlen hcfg).symm.trans ht)
    have hgroup := group_zero_le s
    have hcode := alphabetTable.1 (group s 5 (-2) 0) (by omega)
    refine ⟨_, (s.outValue?_returnSequence_crockText 0).trans (getElem?_crockText s (by decide)), ?_⟩
    omega
  case zeros =>
    have hbyte : ∀ q, memReadLoose s q = 0#8 := fun q => by
      by_cases hq : 0 ≤ q ∧ q < 21
      · rw [memReadLoose_inside hq.1 (by rw [len_toNat_identifier hlen]; exact hq.2)]
        exact hz q.toNat (by omega)
      · exact memReadLoose_outside (by rw [len_toNat_identifier hlen]; omega)
    rw [outSequence_of_exec_crock hlen hcfg ht, crockText_of_zeros fun p => bitAt_of_zero (hbyte _), List.map_replicate]
  case ones =>
    have hbyte : ∀ p : Nat, p < 168 → memReadLoose s (p / 8) = 255#8 := fun p hp => by
      rw [memReadLoose_inside (by omega) (by rw [len_toNat_identifier hlen]; omega)]
      exact ho (p / 8) (by omega)
    rw [outSequence_of_exec_crock hlen hcfg ht, crockText_of_ones fun p hp => bitAt_of_allOnes (hbyte p hp),
      List.map_cons, List.map_replicate]

/-! ## Order (R189, R190) -/

/-- Lists of numbers compare as their images under a function that rises on the numbers in them. -/
theorem map_lt_map_iff_of_strictMonoOn {f : Nat → Nat} {S : Set Nat} (hf : StrictMonoOn f S) {xs ys : List Nat}
    (hx : ∀ d ∈ xs, d ∈ S) (hy : ∀ d ∈ ys, d ∈ S) : xs.map f < ys.map f ↔ xs < ys := by
  induction xs generalizing ys with
  | nil => cases ys <;> simp
  | cons x xs ih =>
    cases ys with
    | nil => simp
    | cons y ys =>
      rw [List.forall_mem_cons] at hx hy
      rw [List.map_cons, List.map_cons, List.cons_lt_cons_iff, List.cons_lt_cons_iff, ih hx.2 hy.2,
        hf.lt_iff_lt hx.1 hy.1, hf.injOn.eq_iff hx.1 hy.1]

/-- The texts of two identifiers compare by character codes as their groups do. -/
theorem crockText_lt_iff (s u : State) :
    (crockText s).map BitVec.toNat < (crockText u).map BitVec.toNat ↔
      ((List.range 34).map fun i => group s 5 (-2) i) < ((List.range 34).map fun i => group u 5 (-2) i) := by
  have hcodes : ∀ v : State, (crockText v).map BitVec.toNat =
      ((List.range 34).map fun i => group v 5 (-2) i).map fun g => (alpha g).toNat := fun v => by
    simp [crockText]
  have hdigits : ∀ v : State, ∀ d ∈ (List.range 34).map fun i => group v 5 (-2) i, d ∈ Set.Iio 32 := fun v => by
    simpa using fun i _ => group_five_lt v i
  rw [hcodes, hcodes, map_lt_map_iff_of_strictMonoOn alpha_strictMonoOn (hdigits s) (hdigits u)]

section
variable {s u : State} (hs : s.len = 21#32) (hu : u.len = 21#32)
include hs hu

/-- The groups of two identifiers compare as their bytes do. -/
theorem identifier_groups_lt_iff :
    ((List.range 34).map fun i => group s 5 (-2) i) < ((List.range 34).map fun i => group u 5 (-2) i) ↔
      s.inputBytes < u.inputBytes :=
  groups_lt_iff_inputBytes_lt (hu.trans hs.symm) (bits := 5) (by decide) (by decide) (groupCount_identifier hs)

/-- The texts of two identifiers compare as their bytes do. -/
theorem identifier_text_lt_iff :
    (crockText s).map BitVec.toNat < (crockText u).map BitVec.toNat ↔ s.inputBytes < u.inputBytes := by
  rw [crockText_lt_iff, identifier_groups_lt_iff hs hu]

/-- Two identifiers compare as their integers do. -/
theorem identifier_lt_iff : s.inputBytes < u.inputBytes ↔ bigEndian (memRead s) 0 21 < bigEndian (memRead u) 0 21 := by
  rw [inputBytes_lt_iff (hu.trans hs.symm), inputValue_identifier hs, inputValue_identifier hu]

/-- Distinct identifiers have distinct texts. -/
theorem inputBytes_eq_of_crockText_eq (h : crockText s = crockText u) : s.inputBytes = u.inputBytes := by
  refine le_antisymm (not_lt.mp fun hlt => ?_) (not_lt.mp fun hlt => ?_)
  · have htext := (identifier_text_lt_iff hu hs).mpr hlt
    rw [h] at htext
    exact lt_irrefl _ htext
  · have htext := (identifier_text_lt_iff hs hu).mpr hlt
    rw [h] at htext
    exact lt_irrefl _ htext

end

/-- An identifier's integer is its timestamp, shifted, plus its random bits. -/
theorem bigEndian_identifier (s : State) :
    bigEndian (memRead s) 0 21 = bigEndian (memRead s) 0 6 * 2 ^ 120 + readBits (memRead s) 48 120 := by
  rw [← readBits_bytes, ← readBits_bytes]
  exact readBits_add (memRead s) 0 48 120

/-- A smaller timestamp makes a smaller identifier. -/
theorem bigEndian_lt_of_timestamp_lt {s u : State} (h : bigEndian (memRead s) 0 6 < bigEndian (memRead u) 0 6) :
    bigEndian (memRead s) 0 21 < bigEndian (memRead u) 0 21 := by
  rw [bigEndian_identifier, bigEndian_identifier, digit_add_lt_iff (readBits_lt _ _ _) (readBits_lt _ _ _)]
  exact .inl h

/-- Settles O49: bytes, integers, groups and texts of two identifiers compare alike. -/
theorem crockPreservesOrder : Obligations.CrockPreservesOrder := by
  intro s u t v xs ys hscfg hucfg hs hu ht hv hxs hys
  have hsome := List.map_injective_iff.mpr (Option.some_injective Byte)
  obtain rfl := hsome (hxs.symm.trans (outSequence_of_exec_crock hs hscfg ht))
  obtain rfl := hsome (hys.symm.trans (outSequence_of_exec_crock hu hucfg hv))
  have htext := identifier_text_lt_iff hs hu
  have hvalue := identifier_lt_iff hs hu
  exact ⟨hvalue, (identifier_groups_lt_iff hs hu).symm, htext.symm,
    fun hts => htext.mpr (hvalue.mpr (bigEndian_lt_of_timestamp_lt hts))⟩

/-- Settles O50: texts that compare as the identifiers do are equal only for equal identifiers. -/
theorem crockIsInjective : Obligations.CrockIsInjective := by
  intro s u t v hscfg hucfg hs hu ht hv hout
  rw [outSequence_of_exec_crock hs hscfg ht, outSequence_of_exec_crock hu hucfg hv] at hout
  exact inputBytes_eq_of_crockText_eq hs hu (List.map_injective_iff.mpr (Option.some_injective Byte) hout)

end Sys2Proof.Machine
end

section
/-! PROOFS. The statements about the host's side: the values of its reads (spec/10_state.md R26, R39), the hazard rule
(spec/70_reset_and_hazards.md R250), what stops the machine (spec/20_memory.md R58) and what a command sees of the
host's writes (R62). -/

namespace Sys2Proof.Machine

/-! ## Host reads (R39) -/

section
variable {s : State}

theorem State.answerRegister_of_some {k : Nat} {v : Word} (h : s.regValue? k = some v) :
    s.answerRegister k = { s with replies := .word v :: s.replies } := by
  simp [State.answerRegister, h, State.answer]

theorem State.answerRegister_of_none {k : Nat} (h : s.regValue? k = none) :
    s.answerRegister k = { s with replies := .word (freeRegister k s.draws) :: s.replies, draws := s.draws + 1 } := by
  simp [State.answerRegister, h]

theorem State.answerOut_of_some {j : Nat} {v : Byte} (h : s.outValue? j = some v) :
    s.answerOut j = { s with replies := .byte v :: s.replies } := by
  simp [State.answerOut, h, State.answer]

theorem State.answerOut_of_none {j : Nat} (h : s.outValue? j = none) :
    s.answerOut j = { s with replies := .byte (Config.freeByte s.draws) :: s.replies, draws := s.draws + 1 } := by
  simp [State.answerOut, h]

/-- RESULT_LO and RESULT_HI have a value exactly while RK = 1. -/
theorem State.regValue?_result :
    (Status.rk s.status = 1#2 → s.regValue? 3 = some s.resultLo ∧ s.regValue? 4 = some s.resultHi) ∧
    (Status.rk s.status ≠ 1#2 → s.regValue? 3 = none ∧ s.regValue? 4 = none) := by
  constructor <;> intro h <;> simp [State.regValue?, h]

/-- OUT_LEN has a value exactly while RK = 2. -/
theorem State.regValue?_outLen :
    (Status.rk s.status = 2#2 → s.regValue? 5 = some s.outLen) ∧
    (Status.rk s.status ≠ 2#2 → s.regValue? 5 = none) := by
  constructor <;> intro h <;> simp [State.regValue?, h]

/-- While RK = 2 the value of a byte below OUT_LEN is its contents. -/
theorem State.outValue?_of_lt (h : Status.rk s.status = 2#2) {j : Nat} (hj : j < s.outLen.toNat) :
    s.outValue? j = Memory.find? s.out j := by
  simp [State.outValue?, h, hj]

/-- A byte of OUT has no value while RK is not 2, nor from OUT_LEN on. -/
theorem State.outValue?_eq_none {j : Nat} (h : Status.rk s.status ≠ 2#2 ∨ s.outLen.toNat ≤ j) :
    s.outValue? j = none := by
  refine if_neg fun hboth => ?_
  exact h.elim (fun hrk => hrk hboth.1) fun hj => hj.not_gt hboth.2

/-- RESULT is RESULT_HI · 2^32 + RESULT_LO (R26). -/
theorem State.resultHi_resultLo (s : State) : s.resultHi.toNat * 2 ^ 32 + s.resultLo.toNat = s.result.toNat := by
  have hlt := s.result.isLt
  rw [State.resultHi, State.resultLo, BitVec.toNat_setWidth_of_le (by decide), BitVec.extractLsb'_toNat,
    BitVec.extractLsb'_toNat, Nat.shiftRight_eq_div_pow, Nat.shiftRight_zero]
  omega

end

theorem step_readReg {k : Nat} {s s0 : State} (hm : HostMoves (.readReg k) s s0) (hk : k ≤ 5) (hb : s.busy = false) :
    step s = .next (s0.answerRegister k) := step_host_idle hm (HostAction.outOfRange?_readReg hk) hb

theorem step_readOut {j : Nat} {s s0 : State} (hm : HostMoves (.readOut j) s s0) (hj : j < s.cfg.noutMax)
    (hb : s.busy = false) : step s = .next (s0.answerOut j) :=
  step_host_idle hm (HostAction.outOfRange?_readOut hj) hb

theorem HostMoves.regValue?_eq {a : HostAction} {s s0 : State} (h : HostMoves a s s0) (k : Nat) :
    s0.regValue? k = s.regValue? k := by
  obtain ⟨rest, -, rfl⟩ := h
  rfl

theorem HostMoves.outValue?_eq {a : HostAction} {s s0 : State} (h : HostMoves a s s0) (j : Nat) :
    s0.outValue? j = s.outValue? j := by
  obtain ⟨rest, -, rfl⟩ := h
  rfl

theorem HostMoves.draws_eq {a : HostAction} {s s0 : State} (h : HostMoves a s s0) : s0.draws = s.draws := by rw [h.eq]

/-- A host read of a register with a value returns it. -/
theorem step_readReg_of_some {k : Nat} {v : Word} {s s0 : State} (hm : HostMoves (.readReg k) s s0) (hk : k ≤ 5)
    (hb : s.busy = false) (hv : s.regValue? k = some v) :
    step s = .next { s0 with replies := .word v :: s.replies } := by
  rw [step_readReg hm hk hb, State.answerRegister_of_some ((hm.regValue?_eq k).trans hv), hm.replies_eq]

/-- A host read of a register without a value returns a free one. -/
theorem step_readReg_of_none {k : Nat} {s s0 : State} (hm : HostMoves (.readReg k) s s0) (hk : k ≤ 5)
    (hb : s.busy = false) (hv : s.regValue? k = none) :
    step s = .next { s0 with replies := .word (freeRegister k s.draws) :: s.replies, draws := s.draws + 1 } := by
  rw [step_readReg hm hk hb, State.answerRegister_of_none ((hm.regValue?_eq k).trans hv), hm.replies_eq, hm.draws_eq]

/-- Settles O52: each read returns the value R39 gives the location; the invariant lists the bytes below OUT_LEN, inside
OUT. -/
theorem specifiedHostReads : Obligations.SpecifiedHostReads := by
  refine fun s s0 hinv hb => ⟨fun hm => ?cmd, fun hm => ?status, fun hm => ?len, fun i hi hm => ?buf,
    fun hrk => ⟨s.resultLo, s.resultHi, s.resultHi_resultLo, fun hm => ?lo, fun hm => ?hi⟩,
    fun hrk => ⟨fun hm => ?outLen, fun j hj hm => ?out⟩⟩
  case cmd => exact step_readReg_of_some hm (by decide) hb rfl
  case status => exact step_readReg_of_some hm (by decide) hb rfl
  case len => exact step_readReg_of_some hm (by decide) hb rfl
  case buf =>
    rw [step_host_idle hm (HostAction.outOfRange?_readBuf hi) hb, State.perform_readBuf, hm.buf_eq, hm.replies_eq]
  case lo => exact step_readReg_of_some hm (by decide) hb (State.regValue?_result.1 hrk).1
  case hi => exact step_readReg_of_some hm (by decide) hb (State.regValue?_result.1 hrk).2
  case outLen => exact step_readReg_of_some hm (by decide) hb (State.regValue?_outLen.1 hrk)
  case out =>
    obtain ⟨v, hv⟩ := Option.isSome_iff_exists.mp (hinv.outListed hrk j hj)
    refine ⟨v, (State.outValue?_of_lt hrk hj).symm.trans hv, ?_⟩
    rw [step_readOut hm (hj.trans_le (hinv.outLen hrk)) hb, State.answerOut_of_some ((hm.outValue?_eq j).trans hv),
      hm.replies_eq]

/-- The free value of RESULT_HI keeps its reserved bits 0 (R43). -/
theorem freeRegister_resultHi_lt (draw : Nat) : (freeRegister 4 draw).toNat < 2 ^ 21 := by
  rw [freeRegister, if_pos rfl, BitVec.toNat_setWidth_of_le (by decide)]
  exact BitVec.isLt _

/-- Settles O53: where R39 gives no value the read draws a free one. -/
theorem unspecifiedHostReads : Obligations.UnspecifiedHostReads := by
  refine fun s s0 hb => ⟨fun hrk hm => ?lo, fun hrk hm => ?hi, fun hrk hm => ?outLen, fun j hj hout hm => ?out⟩
  case lo => exact step_readReg_of_none hm (by decide) hb (State.regValue?_result.2 hrk).1
  case hi =>
    exact ⟨_, freeRegister_resultHi_lt s.draws, step_readReg_of_none hm (by decide) hb (State.regValue?_result.2 hrk).2⟩
  case outLen => exact step_readReg_of_none hm (by decide) hb (State.regValue?_outLen.2 hrk)
  case out =>
    rw [step_readOut hm hj hb, State.answerOut_of_none ((hm.outValue?_eq j).trans (State.outValue?_eq_none hout)),
      hm.replies_eq, hm.draws_eq]

/-! ## The hazard rule (R250) -/

/-- Settles O54: in range and while BUSY the hazard rule alone decides. -/
theorem hazardRule : Obligations.HazardRule := by
  refine fun s s0 hb => ⟨fun hm => ?status, fun hm => ⟨_, (step_host hm).trans (hostAct_reset s0)⟩,
    fun k v hk hm => ?writeReg, fun k hk hne hm => ?readReg, fun i v hi hm => ?writeBuf, fun i hi hm => ?readBuf,
    fun j v hj hm => ?writeOut, fun j hj hm => ?readOut⟩
  case status =>
    have hread : s0.answerRegister 1 = { s0 with replies := .word s.status :: s.replies } := by
      rw [State.answerRegister_of_some (hm.regValue?_eq 1), hm.replies_eq]
    exact (step_host_busy hm rfl hb).trans (congrArg _ hread)
  case writeReg => exact step_host_busy hm (HostAction.outOfRange?_writeReg hk v) hb
  case readReg => simpa [HostAction.hazard?, hne] using step_host_busy hm (HostAction.outOfRange?_readReg hk) hb
  case writeBuf => exact step_host_busy hm (HostAction.outOfRange?_writeBuf hi v) hb
  case readBuf => exact step_host_busy hm (HostAction.outOfRange?_readBuf hi) hb
  case writeOut => exact step_host_busy hm (HostAction.outOfRange?_writeOut hj v) hb
  case readOut => exact step_host_busy hm (HostAction.outOfRange?_readOut hj) hb

/-! ## What stops the machine (R58, R250) -/

/-- A turn of the block always answers a next state. -/
theorem blockTurn_next (s : State) : ∃ t, blockTurn s = .next t := by
  unfold blockTurn
  split
  · obtain ⟨t, ht, -⟩ := complete_next s
    exact ⟨t, ht⟩
  · exact ⟨s, rfl⟩

/-- A poll always answers a next state. -/
theorem pollStatus_next (rest : List Event) (s : State) : ∃ t, pollStatus rest s = .next t := by
  unfold pollStatus
  split <;> exact ⟨_, rfl⟩

/-- A step answers a next state unless it is an action of the host. -/
theorem step_next_or_host (s : State) : (∃ t, step s = .next t) ∨ ∃ a s0, HostMoves a s s0 := by
  cases hin : s.inputs with
  | nil =>
    rw [step_block (.inl ⟨hin, rfl⟩)]
    exact .inl (blockTurn_next s)
  | cons ev rest =>
    cases ev with
    | host a => exact .inr ⟨a, _, rest, hin, rfl⟩
    | block =>
      rw [step_block (.inr ⟨rest, hin, rfl⟩)]
      exact .inl (blockTurn_next _)
    | wait =>
      simp only [step, nextEvent, hin]
      exact .inl (pollStatus_next rest s)

/-- A host action faults only while BUSY. -/
theorem hostAct_fault {a : HostAction} {s : State} {f : Fault} (h : hostAct a s = .fault f) : s.busy = true := by
  cases hr : a.outOfRange? s.cfg with
  | some r => simp [hostAct, hr] at h
  | none =>
    by_contra hb
    rw [hostAct_idle hr (by simpa using hb)] at h
    cases h

/-- A host action is refused only when it is out of range. -/
theorem hostAct_refused {a : HostAction} {s : State} {r : Refusal} (h : hostAct a s = .refused r) :
    a.outOfRange? s.cfg = some r := by
  unfold hostAct at h
  split at h
  · next r' hr => rw [hr, Host.Outcome.refused.inj h]
  · split at h <;> cases h

/-- What is out of range, and its refusal (R58, U6). -/
theorem HostAction.outOfRange?_cases {cfg : Config} {a : HostAction} {r : Refusal} (h : a.outOfRange? cfg = some r) :
    (r = .noSuchRegister ∧ ∃ k, 5 < k ∧ (a = .readReg k ∨ ∃ v, a = .writeReg k v)) ∨
    (r = .noSuchBufIndex ∧ ∃ i, cfg.nbytesMax ≤ i ∧ (a = .readBuf i ∨ ∃ v, a = .writeBuf i v)) ∨
    (r = .noSuchOutIndex ∧ ∃ j, cfg.noutMax ≤ j ∧ (a = .readOut j ∨ ∃ v, a = .writeOut j v)) := by
  cases a with
  | writeReg k v =>
    obtain ⟨hk, hr⟩ := Option.ite_none_right_eq_some.mp h
    exact .inl ⟨(Option.some.inj hr).symm, k, hk, .inr ⟨v, rfl⟩⟩
  | readReg k =>
    obtain ⟨hk, hr⟩ := Option.ite_none_right_eq_some.mp h
    exact .inl ⟨(Option.some.inj hr).symm, k, hk, .inl rfl⟩
  | writeBuf i v =>
    obtain ⟨hi, hr⟩ := Option.ite_none_right_eq_some.mp h
    exact .inr (.inl ⟨(Option.some.inj hr).symm, i, hi, .inr ⟨v, rfl⟩⟩)
  | readBuf i =>
    obtain ⟨hi, hr⟩ := Option.ite_none_right_eq_some.mp h
    exact .inr (.inl ⟨(Option.some.inj hr).symm, i, hi, .inl rfl⟩)
  | writeOut j v =>
    obtain ⟨hj, hr⟩ := Option.ite_none_right_eq_some.mp h
    exact .inr (.inr ⟨(Option.some.inj hr).symm, j, hj, .inr ⟨v, rfl⟩⟩)
  | readOut j =>
    obtain ⟨hj, hr⟩ := Option.ite_none_right_eq_some.mp h
    exact .inr (.inr ⟨(Option.some.inj hr).symm, j, hj, .inl rfl⟩)
  | reset => cases h

/-- Settles O55: only a host action can stop the machine, with a fault while BUSY or a refusal out of range. -/
theorem onlyHostAccessesStop : Obligations.OnlyHostAccessesStop := by
  refine ⟨fun s f h => ?fault, fun s r h => ?refusal⟩
  case fault =>
    obtain ⟨t, ht⟩ | ⟨a, s0, hm⟩ := step_next_or_host s
    · cases h.symm.trans ht
    · have hbusy : s.busy = s0.busy := by rw [State.busy, State.busy, hm.status_eq]
      exact ⟨hbusy.trans (hostAct_fault ((step_host hm).symm.trans h)), a, s0, hm⟩
  case refusal =>
    obtain ⟨t, ht⟩ | ⟨a, s0, hm⟩ := step_next_or_host s
    · cases h.symm.trans ht
    · exact ⟨a, s0, hm, hm.cfg_eq ▸ HostAction.outOfRange?_cases (hostAct_refused ((step_host hm).symm.trans h))⟩

/-! ## The order of host and block (R62) -/

/-- Settles O57: each access has its effect on the idle block, and the command runs on the state they leave. -/
theorem commandSeesEarlierWrites : Obligations.CommandSeesEarlierWrites := by
  intro s a v n w i rest hinv hb ha hd hin
  have hread := Memory.read_write hinv.bufWf a v
  have hbuf := step_host_idle ⟨_, hin, rfl⟩ (HostAction.outOfRange?_writeBuf ha v) hb
  have hlen := step_host_idle (a := .writeReg 2 n) (s := { s with
    buf := Memory.write s.buf a v, inputs := .host (.writeReg 2 n) :: .host (.writeReg 0 w) :: .block :: rest })
    ⟨_, rfl, rfl⟩ rfl hb
  have hcmd := step_host_idle (a := .writeReg 0 w) (s := { s with
    buf := Memory.write s.buf a v, len := n, inputs := .host (.writeReg 0 w) :: .block :: rest }) ⟨_, rfl, rfl⟩ rfl hb
  refine ⟨_, ((run_succ_of_step hbuf 2).trans ((run_succ_of_step hlen 1).trans (run_succ_of_step hcmd 0))), ?turn, rfl,
    rfl, (hread a).trans (if_pos rfl), fun b hne => (hread b).trans (if_neg hne)⟩
  case turn => exact stepRunsDecodedCommand _ _ i (.inr ⟨rest, rfl, rfl⟩) Status.busy_issued hd

end Sys2Proof.Machine
end
